-- ==== Sys2Proof/Word.lean ====
section
/-! DEFINITION. The word types of goch8p-core (00_scope.md R7, R8): every value is unsigned, and bit 0 is the
least significant bit. -/

namespace Sys2Proof

/-- A 4-bit field: a register index or a sprite height (u4 of R8). -/
abbrev Nibble := BitVec 4

/-- A byte: a memory cell, a general register or an immediate (u8 of R8). -/
abbrev Byte := BitVec 8

/-- A 12-bit address operand NNN (u12 of R8). -/
abbrev Addr12 := BitVec 12

/-- A 16-bit word: an instruction, I, PC or a return address (u16 of R8). -/
abbrev Word := BitVec 16

end Sys2Proof
end

