-- ==== Sys2Proof/Config.lean ====
section
/-! DEFINITION. The implementation parameters of 00_scope.md R5 as a type, and the constraints R6 puts on a
parameter set. The values this hardware takes are `Machine.params` (Machine/Params.lean). The spec leaves no value
free (92_eei_decisions.md fixes every point), so there is no free value here. -/

namespace Sys2Proof

/-- A parameter set: one field for each row of the table of R5, under its name there. -/
structure Params where
  numV : Nat
  vWidth : Nat
  iWidth : Nat
  pcWidth : Nat
  insnWidth : Nat
  stackDepth : Nat
  stackEntryWidth : Nat
  addrWidth : Nat
  ramSize : Nat
  ramBase : Nat
  fbWidth : Nat
  fbHeight : Nat
  fbSize : Nat
  fbBase : Nat
  align : Nat
  fontBase : Nat
  font : List Byte
  programBase : Nat
  tickWidth : Nat
  dtWidth : Nat
  clearSetsDirty : Bool
  deriving DecidableEq, Repr

/-- R6: the parameter sets that are well formed. A model refuses any other set. -/
abbrev Params.WellFormed (p : Params) : Prop :=
  1 ≤ p.align ∧ p.ramSize % p.align = 0 ∧
  p.fbSize = p.fbWidth * p.fbHeight ∧ 1 ≤ p.fbWidth ∧ 1 ≤ p.fbHeight ∧
  p.fbSize % p.align = 0 ∧ p.fbBase % p.align = 0 ∧
  p.ramBase = 0 ∧ 0x1000 ≤ p.ramSize ∧ p.ramSize ≤ p.fbBase ∧
  p.fbBase + p.fbSize ≤ 2 ^ p.addrWidth ∧ p.font.length = 80

end Sys2Proof
end

