-- ==== Sys2Proof/Machine/Params.lean ====
section
/-! DEFINITION. The parameter values this hardware takes (00_scope.md R5) and the font table
(70_reset_and_hazards.md R212). They are configuration, fixed for a run (10_state.md R38). -/

namespace Sys2Proof.Machine

/-- STACK_DEPTH: capacity of the call stack. -/
def stackDepth : Nat := 16

/-- RAM_SIZE: capacity of the RAM device in bytes. -/
def ramSize : Nat := 0x1000

/-- FB_WIDTH: framebuffer width in pixels. -/
def fbWidth : Nat := 64

/-- FB_HEIGHT: framebuffer height in pixels. -/
def fbHeight : Nat := 32

/-- FB_SIZE: capacity of the framebuffer device, one byte per pixel (90_conflicts.md C1). -/
def fbSize : Nat := fbWidth * fbHeight

/-- FB_BASE: logical address of framebuffer byte 0. -/
def fbBase : Nat := 0xF800

/-- ALIGN: the router's alignment unit in bytes. -/
def align : Nat := 0x100

/-- PROGRAM_BASE: the first program byte, and PC after reset. -/
def programBase : Nat := 0x200

/-- CLEAR_SETS_DIRTY: whether 00E0 sets the dirty flag (92_eei_decisions.md D18). -/
def clearSetsDirty : Bool := false

/-- FONT: 5 bytes for each digit 0 to F, top row first (R212). Digits 1 to F are the spec's general-knowledge
glyphs (93_implementation_defined.md GK3). -/
def font : List Byte :=
  [0xF0, 0x90, 0x90, 0x90, 0xF0] ++ [0x20, 0x60, 0x20, 0x20, 0x70] ++
  [0xF0, 0x10, 0xF0, 0x80, 0xF0] ++ [0xF0, 0x10, 0xF0, 0x10, 0xF0] ++
  [0x90, 0x90, 0xF0, 0x10, 0x10] ++ [0xF0, 0x80, 0xF0, 0x10, 0xF0] ++
  [0xF0, 0x80, 0xF0, 0x90, 0xF0] ++ [0xF0, 0x10, 0x20, 0x40, 0x40] ++
  [0xF0, 0x90, 0xF0, 0x90, 0xF0] ++ [0xF0, 0x90, 0xF0, 0x10, 0xF0] ++
  [0xF0, 0x90, 0xF0, 0x90, 0x90] ++ [0xE0, 0x90, 0xE0, 0x90, 0xE0] ++
  [0xF0, 0x80, 0x80, 0x80, 0xF0] ++ [0xE0, 0x90, 0x90, 0x90, 0xE0] ++
  [0xF0, 0x80, 0xF0, 0x80, 0xF0] ++ [0xF0, 0x80, 0xF0, 0x80, 0x80]

/-- The whole table of R5. The widths are those of the types of State, Instr and FaultRecord. -/
def params : Params where
  numV := 16
  vWidth := 8
  iWidth := 16
  pcWidth := 16
  insnWidth := 16
  stackDepth := stackDepth
  stackEntryWidth := 16
  addrWidth := 16
  ramSize := ramSize
  ramBase := 0
  fbWidth := fbWidth
  fbHeight := fbHeight
  fbSize := fbSize
  fbBase := fbBase
  align := align
  fontBase := 0
  font := font
  programBase := programBase
  tickWidth := 64
  dtWidth := 8
  clearSetsDirty := clearSetsDirty

end Sys2Proof.Machine
end

