-- ==== Sys2Proof/Machine/State.lean ====
section
/-! DEFINITION. The state of goch8p-core between two ticks, as plain data (10_state.md R37), the value a tick
returns (40_core_cycle.md R119, 60_exceptions.md R180, R189), and the state right after reset
(70_reset_and_hazards.md R210 to R214). -/

namespace Sys2Proof.Machine

/-- The contents of a device: (offset, byte) pairs in canonical form, offsets strictly rising, no byte equal to what
an unlisted offset reads as (`Memory.wf` in Machine/Device.lean says so). An unlisted byte reads as its reset
contents, `initByte`. -/
abbrev Memory := List Host.Cell

/-- The two backing devices (20_memory.md R51). -/
inductive DeviceId where
  | ram
  | fb
  deriving DecidableEq, Repr

/-- The fault kinds of R180, without their info. -/
inductive FaultKind where
  | addressInvalid
  | addressOutOfRange
  | invalidRegionAlignment
  | stackOverflow
  | stackUnderflow
  | unknownInstruction
  | shortRead
  deriving DecidableEq, Repr

/-- A raised fault with the info R180 records for its kind. These are the spec's faults: a tick that raises one
returns it and the core goes on (R193), so none of them is a `Fault` of the model's step. -/
inductive FaultInfo where
  /-- R181: the access's address lies in an unmapped unit. -/
  | addressInvalid (addr : Nat)
  /-- R182: a mapped address translates beyond its device's capacity. -/
  | addressOutOfRange (addr : Nat)
  /-- R183: a region registration with a misaligned start. -/
  | invalidRegionAlignment (start : Nat)
  /-- R184: CALL with a full stack. -/
  | stackOverflow
  /-- R185: RET with an empty stack. -/
  | stackUnderflow
  /-- R186: no dispatch entry claims the word. -/
  | unknownInstruction (word : Word)
  /-- R187: a range access of `n` bytes at `addr` that the router cut to `m`. -/
  | shortRead (addr n m : Nat)
  deriving DecidableEq, Repr

/-- The fault record a faulting tick returns (R189). -/
structure FaultRecord where
  code : Byte
  kind : FaultKind
  addr : Word
  n : Nat
  m : Nat
  opcode : Word
  opcodeValid : Bool
  pc0 : Word
  deriving DecidableEq, Repr

/-- The result of a tick (40_core_cycle.md R119). -/
inductive TickResult where
  | ok
  | fault (record : FaultRecord)
  deriving DecidableEq, Repr

/-- The machine's state: the tuple of R37, and two fields of the model's own, `result` and `firstFault`. -/
structure State where
  /-- V[0] to V[15]; V[15] is VF (10_state.md R20, R22). -/
  v : Vector Byte 16
  /-- The index register I (R24). -/
  index : Word
  /-- The program counter PC (R25). -/
  pc : Word
  /-- The call stack, bottom first (R28). -/
  stack : List Word
  /-- The tick counter (R32). -/
  ticks : BitVec 64
  /-- The delay counter DT (R33). -/
  dt : Byte
  /-- The last decoded word (R34). -/
  lastOpcode : Word
  /-- The dirty-frame flag (R35). -/
  dirty : Bool
  /-- The RAM device's bytes, by device offset (20_memory.md R51). -/
  ram : Memory
  /-- The framebuffer device's bytes, by device offset (R51). -/
  fb : Memory
  /-- MODEL'S OWN (DESIGN CHOICE, safe, log 1): what the last tick returned to the driver (R119), none while no tick
  has run since reset. No tick reads it; the host's Load does, for "before the first Tick" (60_exceptions.md R201). -/
  result : Option TickResult
  /-- MODEL'S OWN (DESIGN CHOICE, safe, log 2): the record of the first fault since reset, never cleared by a tick
  (93_implementation_defined.md U11). No tick's effect on any other field depends on it. -/
  firstFault : Option FaultRecord
  deriving DecidableEq, Repr

/-- Reasons for which a step of the model stops with a fault. There is none: every fault the spec gives a tick is
returned to the driver and the core goes on, "The core never halts itself" (60_exceptions.md R193, 40_core_cycle.md
R117), so a faulting tick is a next state (log 1). -/
inductive Fault where
  deriving DecidableEq, Repr

/-- Reasons for which a step is refused. -/
inductive Refusal where
  /-- Raised by an arm of `exec` whose instruction has no meaning yet; safe (nothing can be proved of a next state).
  No arm of this model raises it. -/
  | notModelled (mnemonic : String)
  deriving DecidableEq, Repr

/-- The state right after reset (70_reset_and_hazards.md R210 to R214). Both memories list nothing: RAM then reads
as the font and zeros (R211, R212), the framebuffer as zeros (R213). -/
def State.reset : State where
  v := Vector.replicate 16 0
  index := 0x0000
  pc := 0x0200
  stack := []
  ticks := 0
  dt := 0
  lastOpcode := 0x0000
  dirty := false
  ram := []
  fb := []
  result := none
  firstFault := none

end Sys2Proof.Machine
end

