-- ==== Sys2Proof/Machine/Device.lean ====
section
/-! DEFINITION. The two backing devices (20_memory.md R51 to R56): byte stores of a fixed capacity. A device's bytes
are held as the cells that differ from their reset contents (log 9). -/

namespace Sys2Proof.Machine

/-- The handle of a device (R51, 92_eei_decisions.md D33). -/
def DeviceId.handle : DeviceId → Nat
  | .ram => 0
  | .fb => 1

/-- The capacity of a device in bytes (R51). -/
def capacity : DeviceId → Nat
  | .ram => ramSize
  | .fb => fbSize

/-- What an unlisted byte of a device reads as: its contents after reset, the font and zeros in RAM
(70_reset_and_hazards.md R211, R212) and zeros in the framebuffer (R213). -/
def initByte : DeviceId → Nat → Byte
  | .ram, off => font.getD off 0
  | .fb, _ => 0

/-- The canonical form: offsets strictly rising and below the capacity, no byte equal to what it would read as
unlisted. -/
abbrev Memory.wf (d : DeviceId) (m : Memory) : Prop :=
  m.Pairwise (fun a b => a.1 < b.1) ∧ ∀ c ∈ m, c.1 < capacity d ∧ c.2 ≠ initByte d c.1

/-- The byte listed at an offset, if one is. -/
def lookup : Memory → Nat → Option Byte
  | [], _ => none
  | c :: cs, off => if c.1 = off then some c.2 else lookup cs off

/-- The byte at an offset, listed or not. -/
def byteOf (d : DeviceId) (m : Memory) (off : Nat) : Byte := (lookup m off).getD (initByte d off)

/-- The cells that list `vs` from offset `off` on, without the bytes that read so anyway. -/
def cellsOf (d : DeviceId) (off : Nat) : List Byte → Memory
  | [] => []
  | b :: bs => if b = initByte d off then cellsOf d (off + 1) bs else (off, b) :: cellsOf d (off + 1) bs

/-- The memory with the bytes `vs` at `off`, `off + 1`, … and every other byte as it was. -/
def overwrite (d : DeviceId) (m : Memory) (off : Nat) (vs : List Byte) : Memory :=
  m.filter (fun c => c.1 < off) ++ cellsOf d off vs ++ m.filter (fun c => off + vs.length ≤ c.1)

/-- Why a device operation fails: OutOfRange (R52 to R55). -/
inductive DevError where
  | outOfRange
  deriving DecidableEq, Repr

/-- DevRead (R52). -/
def devRead (d : DeviceId) (m : Memory) (off : Nat) : Except DevError Byte :=
  if capacity d ≤ off then .error .outOfRange else .ok (byteOf d m off)

/-- DevReadRange (R53): all `len` bytes in order, or OutOfRange and none. -/
def devReadRange (d : DeviceId) (m : Memory) (off len : Nat) : Except DevError (List Byte) :=
  if capacity d < off + len then .error .outOfRange
  else .ok ((List.range len).map (fun k => byteOf d m (off + k)))

/-- DevWrite (R54). -/
def devWrite (d : DeviceId) (m : Memory) (off : Nat) (b : Byte) : Except DevError Memory :=
  if capacity d ≤ off then .error .outOfRange else .ok (overwrite d m off [b])

/-- DevWriteRange (R55): all the bytes, or OutOfRange and none. -/
def devWriteRange (d : DeviceId) (m : Memory) (off : Nat) (vs : List Byte) : Except DevError Memory :=
  if capacity d < off + vs.length then .error .outOfRange else .ok (overwrite d m off vs)

/-- DevReset (R56): every byte 0. -/
def devReset (d : DeviceId) : Memory := cellsOf d 0 (List.replicate (capacity d) 0)

/-- The contents of one device of the machine. -/
def State.device (s : State) : DeviceId → Memory
  | .ram => s.ram
  | .fb => s.fb

/-- The machine with the contents of one device replaced. -/
def State.setDevice (s : State) (d : DeviceId) (m : Memory) : State :=
  match d with
  | .ram => { s with ram := m }
  | .fb => { s with fb := m }

end Sys2Proof.Machine
end

