-- ==== Sys2Proof/Machine/Router.lean ====
section
/-! DEFINITION. The address router (20_memory.md R57 to R69): regions aligned to units of ALIGN bytes, each with one
mapping onto a device; registration, the fixed map, translation, single and range access. -/

namespace Sys2Proof.Machine

/-- A mapping: device, size and device offset (R58). -/
structure Mapping where
  dev : DeviceId
  size : Nat
  devOffset : Nat
  deriving DecidableEq, Repr

/-- A region: start, alignment unit and its one mapping (R58, R60). -/
structure Region where
  start : Nat
  unit : Nat
  mapping : Mapping
  deriving DecidableEq, Repr

/-- The router's region table: the registered regions. The units a region is recorded for follow from its start and
size (R59), so the table lists each region once (log 10). -/
abbrev RegionTable := List Region

/-- The unit index of a logical address (R57). -/
def unitIndex (a : Nat) : Nat := a / align

/-- R59: the region is recorded for unit `u`: start/ALIGN up to (start + size)/ALIGN - 1. -/
def Region.holdsUnit (r : Region) (u : Nat) : Bool :=
  decide (r.start / align ≤ u ∧ u < (r.start + r.mapping.size) / align)

/-- The region recorded for a unit, if any. -/
def regionOfUnit (rt : RegionTable) (u : Nat) : Option Region := rt.find? (fun r => r.holdsUnit u)

/-- RegionOf (R62). -/
def regionOf (rt : RegionTable) (a : Nat) : Option Region := regionOfUnit rt (unitIndex a)

/-- Why a registration fails: the fault of R58 and R183, or one of the configuration errors of R60. -/
inductive RegisterError where
  | invalidRegionAlignment (start : Nat)
  | sizeZero
  | sizeMisaligned
  | pastDevice
  | alreadyMapped
  deriving DecidableEq, Repr

/-- The fault a failed registration raises; the configuration errors of R60 are no fault kinds of R180. -/
def RegisterError.faultInfo : RegisterError → Option FaultInfo
  | .invalidRegionAlignment start => some (.invalidRegionAlignment start)
  | .sizeZero => none
  | .sizeMisaligned => none
  | .pastDevice => none
  | .alreadyMapped => none

/-- RegisterRegion (R58, R60): the alignment check first, then the configuration checks; a failure leaves the table
as it was. -/
def registerRegion (rt : RegionTable) (start size : Nat) (d : DeviceId) (devOffset : Nat) :
    Except RegisterError RegionTable :=
  if start ≠ 0 ∧ start % align ≠ 0 then .error (.invalidRegionAlignment start)
  else if size = 0 then .error .sizeZero
  else if size % align ≠ 0 then .error .sizeMisaligned
  else if capacity d < devOffset + size then .error .pastDevice
  else if (List.range (size / align)).any (fun k => (regionOfUnit rt (start / align + k)).isSome) then
    .error .alreadyMapped
  else .ok (rt ++ [⟨start, align, ⟨d, size, devOffset⟩⟩])

/-- The RAM region of the fixed map (R61). -/
def ramRegion : Region := ⟨0x0000, align, ⟨.ram, ramSize, 0⟩⟩

/-- The framebuffer region of the fixed map (R61). -/
def fbRegion : Region := ⟨fbBase, align, ⟨.fb, fbSize, 0⟩⟩

/-- The fixed map (R61). -/
def fixedMap : RegionTable := [ramRegion, fbRegion]

/-- Step 1 of the reset sequence (70_reset_and_hazards.md R210): the map built from the empty table. -/
def buildMap : Except RegisterError RegionTable :=
  match registerRegion [] 0x0000 ramSize .ram 0 with
  | .error e => .error e
  | .ok rt => registerRegion rt fbBase fbSize .fb 0

/-- Translation (R63): the device offset of an address inside a region. -/
def Region.offset (r : Region) (a : Nat) : Nat := r.mapping.devOffset + (a - r.start)

/-- The bytes from an address to the end of its region (R68). -/
def Region.remaining (r : Region) (a : Nat) : Nat := r.mapping.size - (a - r.start)

/-- RouterRead (R64). -/
def routerRead (rt : RegionTable) (s : State) (a : Nat) : Except FaultInfo Byte :=
  match regionOf rt a with
  | none => .error (.addressInvalid a)
  | some r =>
    match devRead r.mapping.dev (s.device r.mapping.dev) (r.offset a) with
    | .error .outOfRange => .error (.addressOutOfRange a)
    | .ok b => .ok b

/-- RouterWrite (R65). -/
def routerWrite (rt : RegionTable) (s : State) (a : Nat) (b : Byte) : Except FaultInfo State :=
  match regionOf rt a with
  | none => .error (.addressInvalid a)
  | some r =>
    match devWrite r.mapping.dev (s.device r.mapping.dev) (r.offset a) b with
    | .error .outOfRange => .error (.addressOutOfRange a)
    | .ok m => .ok (s.setDevice r.mapping.dev m)

/-- RouterReadRange (R68): served by the region of the first address, cut at that region's end. -/
def routerReadRange (rt : RegionTable) (s : State) (a n : Nat) : Except FaultInfo (List Byte) :=
  match regionOf rt a with
  | none => .error (.addressInvalid a)
  | some r =>
    match devReadRange r.mapping.dev (s.device r.mapping.dev) (r.offset a) (min n (r.remaining a)) with
    | .error .outOfRange => .error (.addressOutOfRange a)
    | .ok bs => .ok bs

/-- RouterWriteRange (R69): cut as RouterReadRange is; the bytes past the cut are dropped. -/
def routerWriteRange (rt : RegionTable) (s : State) (a : Nat) (vs : List Byte) : Except FaultInfo State :=
  match regionOf rt a with
  | none => .error (.addressInvalid a)
  | some r =>
    match devWriteRange r.mapping.dev (s.device r.mapping.dev) (r.offset a)
        (vs.take (min vs.length (r.remaining a))) with
    | .error .outOfRange => .error (.addressOutOfRange a)
    | .ok m => .ok (s.setDevice r.mapping.dev m)

end Sys2Proof.Machine
end

