-- ==== Sys2Proof/Machine/Ops.lean ====
section
/-! DEFINITION. The named operations the instruction rules are written in: registers, the core's memory primitives
(20_memory.md R66, R67, R70, R71), the call stack (10_state.md R29, R30), the three-way result of an instruction's
rule (30_encoding.md R99), and how a tick ends, with a fault or without (40_core_cycle.md R117 to R119). -/

namespace Sys2Proof.Machine

/-! ### Registers -/

/-- V[x] (10_state.md R20). -/
def State.reg (s : State) (x : Nibble) : Byte := s.v[x.toNat]'x.isLt

/-- V[x] <- b. -/
def State.setReg (s : State) (x : Nibble) (b : Byte) : State := { s with v := s.v.set x.toNat b x.isLt }

/-- I <- w. -/
def State.setIndex (s : State) (w : Word) : State := { s with index := w }

/-- PC <- w. -/
def State.setPc (s : State) (w : Word) : State := { s with pc := w }

/-- stack <- ws. -/
def State.setStack (s : State) (ws : List Word) : State := { s with stack := ws }

/-- dirty <- b. -/
def State.setDirty (s : State) (b : Bool) : State := { s with dirty := b }

/-- DT <- b. -/
def State.setDt (s : State) (b : Byte) : State := { s with dt := b }

/-! ### Memory primitives: every access goes through the router's fixed map (20_memory.md R50) -/

/-- MemRead1 (R66). -/
def memRead1 (s : State) (a : Nat) : Except FaultInfo Byte := routerRead fixedMap s a

/-- MemWrite1 (R67). -/
def memWrite1 (s : State) (a : Nat) (b : Byte) : Except FaultInfo State := routerWrite fixedMap s a b

/-- MemRead (R70): exactly `n` bytes, or a fault; the region is resolved even when `n` is 0. -/
def memRead (s : State) (a n : Nat) : Except FaultInfo (List Byte) :=
  match routerReadRange fixedMap s a n with
  | .error f => .error f
  | .ok bs => if bs.length < n then .error (.shortRead a n bs.length) else .ok bs

/-- MemWrite (R71): the check comes before any byte is written. -/
def memWrite (s : State) (a : Nat) (vs : List Byte) : Except FaultInfo State :=
  match regionOf fixedMap a with
  | none => .error (.addressInvalid a)
  | some r =>
    if r.remaining a < vs.length then .error (.shortRead a vs.length (r.remaining a))
    else routerWriteRange fixedMap s a vs

/-! ### The call stack -/

/-- Push (10_state.md R29): the state after it, and whether it was done. A list longer than the capacity is no state
of the hardware; it counts as full (log 11). -/
def State.push (s : State) (w : Word) : State × Bool :=
  if stackDepth ≤ s.stack.length then (s, false) else (s.setStack (s.stack ++ [w]), true)

/-- Pop (10_state.md R30): the entry popped (0 where there is none), whether there was one, and the state after. -/
def State.pop (s : State) : Word × Bool × State :=
  match s.stack.getLast? with
  | none => (0x0000, false, s)
  | some w => (w, true, s.setStack s.stack.dropLast)

/-! ### The result of an instruction's rule -/

/-- What asking a dispatch entry gives (30_encoding.md R99). A failure carries the state at the `raise`: the writes
made before it stay (00_scope.md R11, 40_core_cycle.md R117). -/
inductive DispatchResult where
  | declined
  | claimedOk (s : State)
  | claimedFailed (f : FaultInfo) (s : State)
  deriving DecidableEq, Repr

/-- Go on from a completed part of a rule; a fault ends the rule. -/
def DispatchResult.andThen (r : DispatchResult) (k : State → DispatchResult) : DispatchResult :=
  match r with
  | .declined => .declined
  | .claimedOk s => k s
  | .claimedFailed f s => .claimedFailed f s

/-! ### Faults (60_exceptions.md R180, R189) -/

/-- The kind of a fault. -/
def FaultInfo.kind : FaultInfo → FaultKind
  | .addressInvalid _ => .addressInvalid
  | .addressOutOfRange _ => .addressOutOfRange
  | .invalidRegionAlignment _ => .invalidRegionAlignment
  | .stackOverflow => .stackOverflow
  | .stackUnderflow => .stackUnderflow
  | .unknownInstruction _ => .unknownInstruction
  | .shortRead _ _ _ => .shortRead

/-- The numeric code of a kind (R180). -/
def FaultKind.code : FaultKind → Byte
  | .addressInvalid => 1
  | .addressOutOfRange => 2
  | .invalidRegionAlignment => 3
  | .stackOverflow => 4
  | .stackUnderflow => 5
  | .unknownInstruction => 6
  | .shortRead => 7

/-- The code of a tick's result; 0 is Ok (R180). -/
def TickResult.code : TickResult → Byte
  | .ok => 0
  | .fault r => r.code

/-- The record's addr: the info address for codes 1, 2, 3 and 7, else 0 (R189). -/
def FaultInfo.addr : FaultInfo → Word
  | .addressInvalid a => BitVec.ofNat 16 a
  | .addressOutOfRange a => BitVec.ofNat 16 a
  | .invalidRegionAlignment a => BitVec.ofNat 16 a
  | .stackOverflow => 0
  | .stackUnderflow => 0
  | .unknownInstruction _ => 0
  | .shortRead a _ _ => BitVec.ofNat 16 a

/-- The record's n: the bytes asked for, code 7 only (R189). -/
def FaultInfo.requested : FaultInfo → Nat
  | .addressInvalid _ => 0
  | .addressOutOfRange _ => 0
  | .invalidRegionAlignment _ => 0
  | .stackOverflow => 0
  | .stackUnderflow => 0
  | .unknownInstruction _ => 0
  | .shortRead _ n _ => n

/-- The record's m: the bytes the router gave, code 7 only (R189). -/
def FaultInfo.delivered : FaultInfo → Nat
  | .addressInvalid _ => 0
  | .addressOutOfRange _ => 0
  | .invalidRegionAlignment _ => 0
  | .stackOverflow => 0
  | .stackUnderflow => 0
  | .unknownInstruction _ => 0
  | .shortRead _ _ m => m

/-- The fault record (R189). -/
def faultRecord (f : FaultInfo) (opcode : Word) (opcodeValid : Bool) (pc0 : Word) : FaultRecord where
  code := f.kind.code
  kind := f.kind
  addr := f.addr
  n := f.requested
  m := f.delivered
  opcode := opcode
  opcodeValid := opcodeValid
  pc0 := pc0

/-- TAKING A FAULT (R192, 40_core_cycle.md R117): the tick ends in this state and returns the record. No register is
saved, no mode changes, control goes nowhere, ticks is not incremented; the record goes to the model's own fields
`result` and, if it is the run's first, `firstFault` (log 1, log 2). There is no return from it (R193). -/
def State.takeFault (s : State) (r : FaultRecord) : State :=
  { s with result := some (.fault r), firstFault := some (s.firstFault.getD r) }

/-- POST (40_core_cycle.md R118) and the result Ok (R119). -/
def State.complete (s : State) : State := { s with ticks := s.ticks + 1, result := some .ok }

/-- PC at the start of the tick, seen from after the fetch advance of R113, which is exact modulo 2^16 (log 12). -/
def State.pc0 (s : State) : Word := s.pc - 2

/-- The record of a fault raised in DECODE or EXECUTE, from the state `s` after decode, whose lastOpcode is the
fetched word (R189, 40_core_cycle.md R114). -/
def State.executeRecord (s : State) (f : FaultInfo) : FaultRecord := faultRecord f s.lastOpcode true s.pc0

/-- How a tick ends, from the state `s` after decode and the answer of the dispatch table: POST after Claimed-Ok
(R118), the fault after Claimed-Failed (R117), UnknownInstruction with the raw word if every entry declined
(R116). -/
def endTick (s : State) : DispatchResult → State
  | .claimedOk t => t.complete
  | .claimedFailed f t => t.takeFault (s.executeRecord f)
  | .declined => s.takeFault (s.executeRecord (.unknownInstruction s.lastOpcode))

end Sys2Proof.Machine
end

