-- ==== Sys2Proof/Machine/Flags.lean ====
section
/-! DEFINITION. The one flag: register VF = V[15], which DRW writes as the collision flag (10_state.md R22, R23). -/

namespace Sys2Proof.Machine

/-- The register that is the flag (R22). -/
def vf : Nibble := 15

/-- VF <- 0, "Reset the collision flag register to 0" (41_display.md R131). -/
def State.clearCollision (s : State) : State := s.setReg vf 0

/-- VF <- 1, a lit pixel was turned off (R131, R133). -/
def State.setCollision (s : State) : State := s.setReg vf 1

end Sys2Proof.Machine
end

