-- ==== Sys2Proof/Machine/Operands.lean ====
section
/-! DEFINITION. Operand forms of the instruction rules: widened addresses (30_encoding.md R91), the bits of a sprite
row and the address of a pixel (41_display.md R131, R132). -/

namespace Sys2Proof.Machine

/-- zext_16 of a 12-bit address operand (R91). -/
def zext16 (nnn : Addr12) : Word := nnn.zeroExtend 16

/-- Bit `b` of a sprite row counted from the left, 0 the most significant: `sprite[row][7 - b]` (R131). -/
def spriteRowBit (row : Byte) (b : Nat) : Bool := row.getLsbD (7 - b)

/-- The eight bits of a sprite row from left to right. -/
def spriteRowBits (row : Byte) : List Bool := (List.range 8).map (spriteRowBit row)

/-- A coordinate on the screen; any other is clipped (R134). Coordinates are exact integers. -/
def onScreen (px py : Nat) : Bool := decide (px < fbWidth ∧ py < fbHeight)

/-- The logical address of pixel (px, py) (R132). -/
def pixelAddr (px py : Nat) : Nat := fbBase + py * fbWidth + px

end Sys2Proof.Machine
end

