-- ==== Sys2Proof/Machine/Display.lean ====
section
/-! DEFINITION. CLS and DRW (41_display.md R130 to R134). -/

namespace Sys2Proof.Machine

/-- The rule of 00E0 (R130): FB_SIZE zero bytes to FB_BASE. The dirty flag changes only if CLEAR_SETS_DIRTY. -/
def clsRule (s : State) : DispatchResult :=
  match memWrite s fbBase (List.replicate fbSize 0) with
  | .error f => .claimedFailed f s
  | .ok t => .claimedOk (t.setDirty (t.dirty || clearSetsDirty))

/-- One pixel of a draw (R131, R133, R134): a clipped pixel and a pixel under a 0 bit are untouched; under a 1 bit a
lit pixel goes off and sets VF, any other byte becomes 1 (92_eei_decisions.md D38). -/
def drawPixel (px py : Nat) (bit : Bool) (s : State) : DispatchResult :=
  if onScreen px py && bit then
    match memRead1 s (pixelAddr px py) with
    | .error f => .claimedFailed f s
    | .ok p =>
      if p = 1 then
        match memWrite1 s (pixelAddr px py) 0 with
        | .error f => .claimedFailed f s
        | .ok t => .claimedOk t.setCollision
      else
        match memWrite1 s (pixelAddr px py) 1 with
        | .error f => .claimedFailed f s
        | .ok t => .claimedOk t
  else .claimedOk s

/-- The pixels of one row from (px, py) rightwards (R131, the loop over b). -/
def drawBits (px py : Nat) : List Bool → State → DispatchResult
  | [], s => .claimedOk s
  | b :: bs, s => (drawPixel px py b s).andThen (drawBits (px + 1) py bs)

/-- The rows of a sprite from (px, py) downwards (R131, the loop over row). -/
def drawRows (px py : Nat) : List Byte → State → DispatchResult
  | [], s => .claimedOk s
  | row :: rows, s => (drawBits px py (spriteRowBits row) s).andThen (drawRows px (py + 1) rows)

/-- The rule of DXYN (R131): V[X] and V[Y] are sampled and the sprite is read before anything is written. -/
def drwRule (x y n : Nibble) (s : State) : DispatchResult :=
  match memRead s s.index.toNat n.toNat with
  | .error f => .claimedFailed f s
  | .ok sprite =>
    (drawRows (s.reg x).toNat (s.reg y).toNat sprite s.clearCollision).andThen
      (fun t => .claimedOk (t.setDirty true))

/-- EXECUTE and POST of 00E0. -/
def execCls (s : State) : Host.Outcome State Fault Refusal := .next (endTick s (clsRule s))

/-- EXECUTE and POST of DXYN. -/
def execDrw (x y n : Nibble) (s : State) : Host.Outcome State Fault Refusal := .next (endTick s (drwRule x y n s))

end Sys2Proof.Machine
end

