-- ==== Sys2Proof/Machine/Flow.lean ====
section
/-! DEFINITION. RET and CALL (42_flow.md R150, R151). -/

namespace Sys2Proof.Machine

/-- The rule of 00EE (R150). -/
def retRule (s : State) : DispatchResult :=
  match s.pop with
  | (_, false, t) => .claimedFailed .stackUnderflow t
  | (a, true, t) => .claimedOk (t.setPc a)

/-- The rule of 2NNN (R151): PC is already pc0 + 2 when it is pushed. -/
def callRule (nnn : Addr12) (s : State) : DispatchResult :=
  match s.push s.pc with
  | (t, false) => .claimedFailed .stackOverflow t
  | (t, true) => .claimedOk (t.setPc (zext16 nnn))

/-- EXECUTE and POST of 00EE. -/
def execRet (s : State) : Host.Outcome State Fault Refusal := .next (endTick s (retRule s))

/-- EXECUTE and POST of 2NNN. -/
def execCall (nnn : Addr12) (s : State) : Host.Outcome State Fault Refusal := .next (endTick s (callRule nnn s))

end Sys2Proof.Machine
end

