-- ==== Sys2Proof/Machine/Loads.lean ====
section
/-! DEFINITION. LD I and LD VX (43_loads.md R170, R171). -/

namespace Sys2Proof.Machine

/-- The rule of ANNN (R170). -/
def ldIRule (nnn : Addr12) (s : State) : DispatchResult := .claimedOk (s.setIndex (zext16 nnn))

/-- The rule of 6XKK (R171); X = F writes VF as a general register (92_eei_decisions.md D31). -/
def ldVxRule (x : Nibble) (kk : Byte) (s : State) : DispatchResult := .claimedOk (s.setReg x kk)

/-- EXECUTE and POST of ANNN. -/
def execLdI (nnn : Addr12) (s : State) : Host.Outcome State Fault Refusal := .next (endTick s (ldIRule nnn s))

/-- EXECUTE and POST of 6XKK. -/
def execLdVx (x : Nibble) (kk : Byte) (s : State) : Host.Outcome State Fault Refusal :=
  .next (endTick s (ldVxRule x kk s))

end Sys2Proof.Machine
end

