-- ==== Sys2Proof/Syntax.lean ====
section
/-! DEFINITION. The instruction set goch8p-core6 (30_encoding.md R92), one constructor for each row of
spec/opcode_table.json, and the lines of its assembler notation (R100). -/

namespace Sys2Proof

/-- The six instructions of R92. An operand has exactly the width R91 gives its field. -/
inductive Instr where
  /-- 00E0, clear the framebuffer (41_display.md R130). -/
  | cls
  /-- 00EE, return from subroutine (42_flow.md R150). -/
  | ret
  /-- 2NNN, call the subroutine at NNN (42_flow.md R151). -/
  | call (nnn : Addr12)
  /-- 6XKK, V[X] <- KK (43_loads.md R171). -/
  | ldVx (x : Nibble) (kk : Byte)
  /-- ANNN, I <- NNN (43_loads.md R170). -/
  | ldI (nnn : Addr12)
  /-- DXYN, draw an N-row sprite at (V[X], V[Y]) (41_display.md R131). -/
  | drw (x y : Nibble) (n : Nibble)
  deriving DecidableEq, Repr

/-- One assembler line of R100, with its operands as the numbers written: they need not fit their fields
(`AsmLine.wellFormed` is that check). `dw` is the data directive DW. -/
inductive AsmLine where
  | cls
  | ret
  | call (nnn : Nat)
  | ldVx (x kk : Nat)
  | ldI (nnn : Nat)
  | drw (x y n : Nat)
  | dw (word : Nat)
  deriving DecidableEq, Repr

end Sys2Proof
end

