-- ==== Sys2Proof/WellFormed.lean ====
section
/-! DEFINITION. Which assembler lines are accepted (30_encoding.md R100: an operand that does not fit its field
makes the line refused). A decoded `Instr` needs no such check: the widths of R91 are in its type, so every `Instr`
is well formed. The well-formedness of a parameter set is `Params.WellFormed` in Config.lean. -/

namespace Sys2Proof

/-- R100: a register is V0 to VF, an address operand fits 12 bits, a byte operand 8, a nibble operand 4, and a
data word 16 (R90). -/
def AsmLine.wellFormed : AsmLine → Bool
  | .cls => true
  | .ret => true
  | .call nnn => decide (nnn < 0x1000)
  | .ldVx x kk => decide (x < 16 ∧ kk < 0x100)
  | .ldI nnn => decide (nnn < 0x1000)
  | .drw x y n => decide (x < 16 ∧ y < 16 ∧ n < 16)
  | .dw word => decide (word < 0x10000)

end Sys2Proof
end

