-- ==== Sys2Proof/Decode.lean ====
section
/-! DEFINITION. Reading an instruction from its bytes and writing it back (30_encoding.md). Fields: R90, R91. The
dispatch table and which entry claims a word: R92, R93, R97. Illegal words: R94. After the decoder: the encoder, and
the assembler lines' words (R100). -/

namespace Sys2Proof

/-! ### Fields of an instruction word (R90, R91) -/

/-- class, bits 15:12. -/
def fieldClass (w : Word) : Nibble := w.extractLsb' 12 4

/-- X, bits 11:8. -/
def fieldX (w : Word) : Nibble := w.extractLsb' 8 4

/-- Y, bits 7:4. -/
def fieldY (w : Word) : Nibble := w.extractLsb' 4 4

/-- N, bits 3:0. -/
def fieldN (w : Word) : Nibble := w.extractLsb' 0 4

/-- KK, bits 7:0. -/
def fieldKK (w : Word) : Byte := w.extractLsb' 0 8

/-- NNN, bits 11:0. -/
def fieldNNN (w : Word) : Addr12 := w.extractLsb' 0 12

/-! ### Byte order (20_memory.md R72) -/

/-- The big-endian word of two bytes, the first the high one: `(b0 << 8) | b1`. -/
def wordOfBytes (b0 b1 : Byte) : Word := b0 ++ b1

/-- The two bytes of a word, high byte first. -/
def bytesOfWord (w : Word) : List Byte := [w.extractLsb' 8 8, w.extractLsb' 0 8]

/-! ### The dispatch table (R92, R93, R97) -/

/-- The six entries of the dispatch table, as tagged variants (R97). -/
inductive Entry where
  | cls
  | ret
  | call
  | ldVx
  | ldI
  | drw
  deriving DecidableEq, Repr

/-- The mask of an entry (R92). -/
def Entry.mask : Entry → Word
  | .cls => 0xFFFF
  | .ret => 0xFFFF
  | .call => 0xF000
  | .ldVx => 0xF000
  | .ldI => 0xF000
  | .drw => 0xF000

/-- The match value of an entry (R92). -/
def Entry.pattern : Entry → Word
  | .cls => 0x00E0
  | .ret => 0x00EE
  | .call => 0x2000
  | .ldVx => 0x6000
  | .ldI => 0xA000
  | .drw => 0xD000

/-- R93: an entry claims a word exactly when `(word & mask) = match`. -/
def Entry.claims (e : Entry) (w : Word) : Bool := (w &&& e.mask) == e.pattern

/-- R97: the entries in the order in which they are asked. -/
def dispatchTable : List Entry := [.cls, .ret, .call, .ldVx, .ldI, .drw]

/-- The instruction a claiming entry reads from the word, its operands taken by R91. -/
def Entry.instr (e : Entry) (w : Word) : Instr :=
  match e with
  | .cls => .cls
  | .ret => .ret
  | .call => .call (fieldNNN w)
  | .ldVx => .ldVx (fieldX w) (fieldKK w)
  | .ldI => .ldI (fieldNNN w)
  | .drw => .drw (fieldX w) (fieldY w) (fieldN w)

/-- R115: the first entry, in the table's order, that claims the word; none for an illegal word. -/
def dispatch (w : Word) : Option Entry := dispatchTable.find? (fun e => e.claims w)

/-- R98: a dispatch keyed directly on the class nibble and, for class 0, on the whole word. -/
def dispatchByClass (w : Word) : Option Entry :=
  if fieldClass w = 0 then
    if w = 0x00E0 then some .cls else if w = 0x00EE then some .ret else none
  else if fieldClass w = 2 then some .call
  else if fieldClass w = 6 then some .ldVx
  else if fieldClass w = 0xA then some .ldI
  else if fieldClass w = 0xD then some .drw
  else none

/-! ### The decoder -/

/-- Why bytes give no instruction. -/
inductive DecodeError where
  /-- No dispatch entry claims the word (R94): the machine raises UnknownInstruction with it. -/
  | unknownInstruction (w : Word)
  /-- Fewer than the two bytes of an instruction (R96); `present` bytes are there. -/
  | tooFewBytes (present : Nat)
  deriving DecidableEq, Repr

/-- The instruction a word encodes, or its rejection as an unknown instruction (R94, R115). -/
def decodeWord (w : Word) : Except DecodeError Instr :=
  match dispatch w with
  | some e => .ok (e.instr w)
  | none => .error (.unknownInstruction w)

/-- Read one instruction from the front of a list of bytes, with the bytes left over. Every instruction is exactly
two bytes (R96), the first the high byte (R72). -/
def decode : List Byte → Except DecodeError (Instr × List Byte)
  | b0 :: b1 :: rest =>
    match decodeWord (wordOfBytes b0 b1) with
    | .ok i => .ok (i, rest)
    | .error e => .error e
  | bs => .error (.tooFewBytes bs.length)

/-- The word whose bits, numbered as spec/opcode_table.json numbers them, are the low `nbits` bits of `w`. -/
def tableWord (nbits w : Nat) : Word := BitVec.ofNat 16 (w % 2 ^ nbits)

/-- What the decoder reads from the instruction with the table's bits `w`, laid out high byte first (R72). -/
def decodeTableWord (nbits w : Nat) : Option Instr :=
  match decode (bytesOfWord (tableWord nbits w)) with
  | .ok (i, _) => some i
  | .error _ => none

/-! ### The encoder (R92, R100) -/

/-- The dispatch entry an instruction belongs to. -/
def Instr.entry : Instr → Entry
  | .cls => .cls
  | .ret => .ret
  | .call _ => .call
  | .ldVx _ _ => .ldVx
  | .ldI _ => .ldI
  | .drw _ _ _ => .drw

/-- The word of an instruction, by the encoding column of R100. -/
def encode : Instr → Word
  | .cls => 0x00E0
  | .ret => 0x00EE
  | .call nnn => (2 : Nibble) ++ nnn
  | .ldVx x kk => (6 : Nibble) ++ (x ++ kk)
  | .ldI nnn => (0xA : Nibble) ++ nnn
  | .drw x y n => (0xD : Nibble) ++ (x ++ (y ++ n))

/-- The bytes of an instruction as memory holds them, high byte first (R90, R72). -/
def encodeBytes (i : Instr) : List Byte := bytesOfWord (encode i)

/-- The instruction of a well-formed assembler line; none for a data word. Operands are cut to their fields, which
changes nothing on a well-formed line. -/
def AsmLine.instr? : AsmLine → Option Instr
  | .cls => some .cls
  | .ret => some .ret
  | .call nnn => some (.call (BitVec.ofNat 12 nnn))
  | .ldVx x kk => some (.ldVx (BitVec.ofNat 4 x) (BitVec.ofNat 8 kk))
  | .ldI nnn => some (.ldI (BitVec.ofNat 12 nnn))
  | .drw x y n => some (.drw (BitVec.ofNat 4 x) (BitVec.ofNat 4 y) (BitVec.ofNat 4 n))
  | .dw _ => none

/-- R100: the word a line stands for; a line with an operand that does not fit is refused (none). -/
def AsmLine.assemble (l : AsmLine) : Option Word :=
  if l.wellFormed then
    match l with
    | .dw word => some (BitVec.ofNat 16 word)
    | l => l.instr?.map encode
  else none

end Sys2Proof
end

