-- ==== Sys2Proof/Machine/Fetch.lean ====
section
/-! DEFINITION. FETCH and DECODE of a tick (40_core_cycle.md R112 to R116), and placing an instruction where the next
tick fetches. -/

namespace Sys2Proof.Machine

/-- The word at PC (R112): MemRead(PC, 2), big-endian. -/
def fetchWord (s : State) : Except FaultInfo Word :=
  match memRead s s.pc.toNat 2 with
  | .error f => .error f
  | .ok (b0 :: b1 :: _) => .ok (wordOfBytes b0 b1)
  | .ok bs => .error (.shortRead s.pc.toNat 2 bs.length)

/-- The state after fetching `w` (R113: PC <- pc0 + 2 mod 2^16) and writing lastOpcode at decode (R114). -/
def State.fetched (s : State) (w : Word) : State := { s with pc := s.pc + 2, lastOpcode := w }

/-- The end of a tick whose fetch faults (R112, R117): no architectural state changes; opcode is 0 and not valid, and
pc0 is PC (60_exceptions.md R189). -/
def State.fetchFault (s : State) (f : FaultInfo) : State := s.takeFault (faultRecord f 0 false s.pc)

/-- The end of a tick whose word no entry claims (R116). -/
def State.unknown (s : State) : State := endTick s .declined

/-- The machine with the word `w` stored high byte first at PC; unchanged where PC is unmapped. -/
def State.placeWord (s : State) (w : Word) : State :=
  match routerWriteRange fixedMap s s.pc.toNat (bytesOfWord w) with
  | .ok t => t
  | .error _ => s

end Sys2Proof.Machine
end

