-- ==== Sys2Proof/Machine/Step.lean ====
section
/-! DEFINITION. One step of the machine: one tick (40_core_cycle.md R111). -/

namespace Sys2Proof.Machine

/-- Tick (R111): FETCH, DECODE, then EXECUTE and POST (`exec`). A fault of any phase ends the tick with the record in
`result`, and the machine goes on (R117, 60_exceptions.md R193, log 1). -/
def step (s : State) : Host.Outcome State Fault Refusal :=
  match fetchWord s with
  | .error f => .next (s.fetchFault f)
  | .ok w =>
    match decodeWord w with
    | .error _ => .next (s.fetched w).unknown
    | .ok i => exec i (s.fetched w)

/-- The machine with the instruction of spec/opcode_table.json's bits `w` stored where the next step fetches: the two
bytes at PC, high byte first (20_memory.md R72). After reset that is 0x200, where the host loads a program
(70_reset_and_hazards.md R215, log 4). -/
def State.withFetchWord (s : State) (nbits w : Nat) : State := s.placeWord (tableWord nbits w)

end Sys2Proof.Machine
end

