-- ==== Sys2Proof/Machine/Assembler.lean ====
section
/-! DEFINITION. The text of an assembler line (30_encoding.md R100): mnemonics and register names in capitals as R100
writes them, operands separated by commas, numbers decimal or hexadecimal after 0x (log 14). -/

namespace Sys2Proof.Machine

/-- A space or a tab. -/
def isBlank (c : Char) : Bool := c == ' ' || c == '\t'

/-- The text without blanks at its ends. -/
def trimBlanks (cs : List Char) : List Char := ((cs.dropWhile isBlank).reverse.dropWhile isBlank).reverse

/-- The pieces of a text between commas. -/
def splitCommas : List Char → List (List Char)
  | [] => [[]]
  | c :: cs =>
    if c = ',' then [] :: splitCommas cs
    else
      match splitCommas cs with
      | [] => [[c]]
      | w :: ws => (c :: w) :: ws

/-- The value of a digit, hexadecimal digits in either case. -/
def digitValue (c : Char) : Option Nat :=
  let n := c.toNat
  if 48 ≤ n ∧ n ≤ 57 then some (n - 48)
  else if 65 ≤ n ∧ n ≤ 70 then some (n - 55)
  else if 97 ≤ n ∧ n ≤ 102 then some (n - 87)
  else none

/-- The number written by digits of a base, from a value so far. -/
def digitsValue (base : Nat) : Nat → List Char → Option Nat
  | acc, [] => some acc
  | acc, c :: cs =>
    match digitValue c with
    | some d => if d < base then digitsValue base (acc * base + d) cs else none
    | none => none

/-- A number: hexadecimal after `0x`, else decimal (R100); at least one digit. -/
def parseNumber : List Char → Option Nat
  | [] => none
  | ['0', 'x'] => none
  | '0' :: 'x' :: cs => digitsValue 16 0 cs
  | cs => digitsValue 10 0 cs

/-- A register operand V0 to VF (R100). -/
def parseRegister : List Char → Option Nat
  | ['V', c] => if 97 ≤ c.toNat then none else digitValue c
  | _ => none

/-- A line of R100 from its mnemonic and its operands; none where they do not fit together. -/
def parseOperands (mnemonic : List Char) (ops : List (List Char)) : Option AsmLine :=
  if mnemonic = ['C', 'L', 'S'] then (if ops = [] then some .cls else none)
  else if mnemonic = ['R', 'E', 'T'] then (if ops = [] then some .ret else none)
  else if mnemonic = ['C', 'A', 'L', 'L'] then
    match ops with
    | [a] => (parseNumber a).map .call
    | _ => none
  else if mnemonic = ['L', 'D'] then
    match ops with
    | [['I'], a] => (parseNumber a).map .ldI
    | [r, k] => (parseRegister r).bind (fun x => (parseNumber k).map (.ldVx x))
    | _ => none
  else if mnemonic = ['D', 'R', 'W'] then
    match ops with
    | [r, q, k] =>
      (parseRegister r).bind (fun x => (parseRegister q).bind (fun y => (parseNumber k).map (.drw x y)))
    | _ => none
  else if mnemonic = ['D', 'W'] then
    match ops with
    | [a] => (parseNumber a).map .dw
    | _ => none
  else none

/-- The line a text stands for (R100). -/
def parseLine (text : List Char) : Option AsmLine :=
  let t := trimBlanks text
  let rest := trimBlanks (t.dropWhile (fun c => !isBlank c))
  parseOperands (t.takeWhile (fun c => !isBlank c))
    (if rest = [] then [] else (splitCommas rest).map trimBlanks)

/-- The word of a line of text; none where the line is refused (R100). -/
def assembleText (text : List Char) : Option Word := (parseLine text).bind AsmLine.assemble

end Sys2Proof.Machine
end

