-- ==== Sys2Proof/Machine/DispatchLoop.lean ====
section
/-! DEFINITION. The dispatch loop as 40_core_cycle.md R115 and 30_encoding.md R99 tell it: the entries of the table
are asked in order, each claims or declines, and the first claim ends the loop. `step` decodes first and then
executes; that both agree is a statement (Obligations.DispatchLoopAgreesWithStep). -/

namespace Sys2Proof.Machine

/-- The instruction rule of an instruction, without POST. -/
def ruleOf (i : Instr) (s : State) : DispatchResult :=
  match i with
  | .cls => clsRule s
  | .ret => retRule s
  | .call nnn => callRule nnn s
  | .ldVx x kk => ldVxRule x kk s
  | .ldI nnn => ldIRule nnn s
  | .drw x y n => drwRule x y n s

/-- Asking one entry about a word (R99). -/
def ask (e : Entry) (w : Word) (s : State) : DispatchResult :=
  if e.claims w then ruleOf (e.instr w) s else .declined

/-- Asking the entries of a list in order, up to the first that does not decline (R115). -/
def askInOrder (w : Word) (s : State) : List Entry → DispatchResult
  | [] => .declined
  | e :: es =>
    match ask e w s with
    | .declined => askInOrder w s es
    | r => r

/-- DECODE, EXECUTE and POST of the fetched word by the dispatch loop (R111). -/
def runDispatchLoop (w : Word) (s : State) : State := endTick s (askInOrder w s dispatchTable)

end Sys2Proof.Machine
end

