-- ==== Sys2Proof/Machine/HostActions.lean ====
section
/-! DEFINITION. The host's actions (60_exceptions.md R200 to R207) and the reset sequence
(70_reset_and_hazards.md R210). Each is applied between ticks (R206). `step` is the action Tick; the others are not
steps of the model (log 3). -/

namespace Sys2Proof.Machine

/-- The reset sequence (R210), steps 2 to 5: RAM zeroed, FONT written at its start, framebuffer zeroed, registers
set. Step 1 builds the region table, which is configuration (`buildMap`); step 6, READY, is what a State is. The
model's own fields start anew (R207: a reset discards all state). -/
def State.resetSequence (s : State) : State :=
  { s with
    ram := overwrite .ram (devReset .ram) 0 font
    fb := devReset .fb
    v := Vector.replicate 16 0
    index := 0
    pc := BitVec.ofNat 16 programBase
    stack := []
    ticks := 0
    dt := 0
    lastOpcode := 0
    dirty := false
    result := none
    firstFault := none }

/-- What Snapshot returns (R203): no DT and no RAM. -/
structure Snapshot where
  ticks : BitVec 64
  lastOpcode : Word
  v : Vector Byte 16
  index : Word
  pc : Word
  stack : List Word
  dirty : Bool
  fb : List Byte
  deriving DecidableEq, Repr

/-- Snapshot (R203): the framebuffer's bytes in device-offset order, the stack bottom first. -/
def State.snapshot (s : State) : Snapshot where
  ticks := s.ticks
  lastOpcode := s.lastOpcode
  v := s.v
  index := s.index
  pc := s.pc
  stack := s.stack
  dirty := s.dirty
  fb := (List.range fbSize).map (byteOf .fb s.fb)

/-- When Load is allowed (R201): before the first tick of the run, from 0x200 up to the end of RAM. A tick that
faulted counts as a tick (log 13). -/
def State.loadAllowed (s : State) (a : Nat) (bytes : List Byte) : Bool :=
  s.result.isNone && decide (programBase ≤ a ∧ a + bytes.length ≤ ramSize)

/-- Load (R201): the bytes go to RAM offsets from `a` on; none where the load is refused, with nothing written. -/
def State.load (s : State) (a : Nat) (bytes : List Byte) : Option State :=
  if s.loadAllowed a bytes then some { s with ram := overwrite .ram s.ram a bytes } else none

/-- AckDirty (R204). -/
def State.ackDirty (s : State) : State := s.setDirty false

/-- TimerEvent (R205): DT counts down and stays at 0. -/
def State.timerEvent (s : State) : State := s.setDt (if s.dt = 0 then 0 else s.dt - 1)

/-- The host's actions (R200). -/
inductive HostAction where
  | reset
  | load (a : Nat) (bytes : List Byte)
  | tick
  | snapshot
  | ackDirty
  | timerEvent
  deriving DecidableEq, Repr

/-- What an action gives back to the host (R200). `noTick` stands for a step that answers no next state; this model
has none. -/
inductive ActionOutput where
  | none
  | loadOk
  | loadRefused
  | tick (r : Option TickResult)
  | snapshot (r : Snapshot)
  | noTick
  deriving DecidableEq, Repr

/-- One action of the host (R200). -/
def HostAction.apply (act : HostAction) (s : State) : State × ActionOutput :=
  match act with
  | .reset => (s.resetSequence, .none)
  | .load a bytes =>
    match s.load a bytes with
    | some t => (t, .loadOk)
    | Option.none => (s, .loadRefused)
  | .tick =>
    match step s with
    | .next t => (t, .tick t.result)
    | .fault _ => (s, .noTick)
    | .refused _ => (s, .noTick)
  | .snapshot => (s, .snapshot s.snapshot)
  | .ackDirty => (s.ackDirty, .none)
  | .timerEvent => (s.timerEvent, .none)

/-- The state after a list of actions, the first applied first. -/
def applyAll (acts : List HostAction) (s : State) : State := acts.foldl (fun t act => (act.apply t).1) s

end Sys2Proof.Machine
end

