-- ==== Sys2Proof/Safety.lean ====
section
/-! DEFINITION. The terms claims are stated in: the invariant of the machine's states, pixels and sprites as
41_display.md speaks of them, ticks without a fault, and the two ends of a run (60_exceptions.md R208). -/

namespace Sys2Proof.Machine

/-! ### The invariant -/

/-- Both devices' cells are in canonical form. -/
abbrev State.MemoryWf (s : State) : Prop := s.ram.wf .ram ∧ s.fb.wf .fb

/-- Every framebuffer byte is 0 or 1 (20_memory.md R81); an unlisted one is 0. -/
abbrev State.PixelsBinary (s : State) : Prop := ∀ c ∈ s.fb, c.2 = 0 ∨ c.2 = 1

/-- The call stack is within its capacity (10_state.md R28). -/
abbrev State.StackBounded (s : State) : Prop := s.stack.length ≤ stackDepth

/-- PC and every return address are at most 0x1000 (42_flow.md R150, 20_memory.md R79), I is at most 0x0FFF
(10_state.md R24). -/
abbrev State.AddressesInRam (s : State) : Prop :=
  s.pc.toNat ≤ ramSize ∧ (∀ a ∈ s.stack, a.toNat ≤ ramSize) ∧ s.index.toNat < ramSize

/-- The machine's invariant: what holds at every tick boundary of a run from reset. -/
abbrev State.Inv (s : State) : Prop := s.MemoryWf ∧ s.PixelsBinary ∧ s.StackBounded ∧ s.AddressesInRam

/-! ### Pixels and sprites (41_display.md R131 to R134) -/

/-- The framebuffer byte of pixel (px, py) (R132). -/
def State.pixel (s : State) (px py : Nat) : Byte := byteOf .fb s.fb (py * fbWidth + px)

/-- The table of R133: a pixel `p` under sprite bit `bit`; a byte other than 1 counts as 0 (92_eei_decisions.md
D38). -/
def pixelAfter (bit : Bool) (p : Byte) : Byte :=
  match bit with
  | false => p
  | true => if p = 1 then 0 else 1

/-- The bit of a sprite drawn at (x0, y0) that falls on pixel (px, py): bit px - x0, 0 the most significant, of row
py - y0, where the sprite has that row and bit (R131, R134). -/
def spriteBit (sprite : List Byte) (x0 y0 px py : Nat) : Bool :=
  decide (x0 ≤ px ∧ px < x0 + 8 ∧ y0 ≤ py) &&
    match sprite[py - y0]? with
    | some row => spriteRowBit row (px - x0)
    | none => false

/-- Some on-screen pixel is lit and under a 1 bit (R133). -/
def State.Collides (s : State) (cover : Nat → Nat → Bool) : Prop :=
  ∃ px py, onScreen px py = true ∧ cover px py = true ∧ s.pixel px py = 1

/-! ### How two states of one tick differ -/

/-- Every byte of memory reads as before, through the core's read of one byte. -/
abbrev SameBytes (s t : State) : Prop := ∀ a, memRead1 t a = memRead1 s a

/-- The tick from `s` completed in `t` (40_core_cycle.md R118, R119); `result` and `firstFault` are the model's own
fields (DESIGN CHOICE, log 1, log 2). -/
abbrev TickCompleted (s t : State) : Prop :=
  t.ticks = s.ticks + 1 ∧ t.result = some .ok ∧ t.firstFault = s.firstFault

/-- The tick from `s` ended in `t` with the fault record `r` (R117, R119); `result` and `firstFault` are the model's own
fields (DESIGN CHOICE, log 1, log 2). -/
abbrev TickFaulted (s t : State) (r : FaultRecord) : Prop :=
  t.ticks = s.ticks ∧ t.result = some (.fault r) ∧ t.firstFault = some (s.firstFault.getD r)

/-- The registers and memory that no tick which faults may change (R117): all but PC and lastOpcode. -/
abbrev SameButPc (s t : State) : Prop :=
  t.v = s.v ∧ t.index = s.index ∧ t.stack = s.stack ∧ t.dt = s.dt ∧ t.dirty = s.dirty ∧ t.ram = s.ram ∧ t.fb = s.fb

/-- The same in everything a program, a fault or a snapshot shows (10_state.md R37 less DT, which R33 says nothing
observes): the two may differ in DT and in the model's own fields. -/
abbrev SameObservable (s t : State) : Prop :=
  t.v = s.v ∧ t.index = s.index ∧ t.pc = s.pc ∧ t.stack = s.stack ∧ t.ticks = s.ticks ∧
  t.lastOpcode = s.lastOpcode ∧ t.dirty = s.dirty ∧ t.ram = s.ram ∧ t.fb = s.fb

/-- The record of a tick's result, if it is a fault. -/
def TickResult.record? : TickResult → Option FaultRecord
  | .ok => none
  | .fault r => some r

/-! ### Ticks and runs -/

/-- The state after one tick (60_exceptions.md R202). -/
def State.tick (s : State) : State := (HostAction.tick.apply s).1

/-- The run of exactly `k` ticks, with every tick's result, oldest first (R208). -/
def runTicks : Nat → State → State × List (Option TickResult)
  | 0, s => (s, [])
  | k + 1, s => ((runTicks k s.tick).1, s.tick.result :: (runTicks k s.tick).2)

/-- The tick that led to this state completed. -/
def State.completed (s : State) : Bool := s.result == some .ok

/-- `k` ticks from here all complete without a fault. -/
def FaultFree : Nat → State → Prop
  | 0, _ => True
  | k + 1, s => s.tick.completed = true ∧ FaultFree k s.tick

/-- The run to the first fault, within `k` ticks (R208): the state after the first tick that faults, or none if none
of them does. -/
def runToFault : Nat → State → Option State
  | 0, _ => none
  | k + 1, s => if s.tick.completed then runToFault k s.tick else some s.tick

end Sys2Proof.Machine
end

