-- ==== Sys2Proof/Certificates/Slice0/Obligations.lean ====
section
/-! DEFINITION. The statements for the provers. Each docstring names the rule of spec/ it formalises. Where a statement
speaks of how a tick ended, the record and the result are R189's and R119's, and the fields result and firstFault that
hold them are the model's own (DESIGN CHOICE, log 1, log 2); no clause about them is a rule of the spec. -/

open Sys2Proof Sys2Proof.Machine

/-! ### Encoding -/

/-- 30_encoding.md R91, R92, R96: decoding the word, or the two bytes, of any instruction gives that instruction with
every operand, and leaves the bytes that follow. -/
def Obligations.DecodeOfEncodeIsIdentity : Prop :=
  ∀ (i : Instr) (rest : List Byte),
    decodeWord (encode i) = .ok i ∧ decode (encodeBytes i ++ rest) = .ok (i, rest)

/-- R92, R93: no bit of a legal word is lost: encoding the instruction a word decodes to gives the word back. -/
def Obligations.EncodeOfDecodeIsIdentity : Prop :=
  ∀ (w : Word) (i : Instr), decodeWord w = .ok i → encode i = w

/-- R98: the six patterns are pairwise disjoint, the order of the table never changes which entry claims a word, and
a decoder keyed on the class nibble and then, for class 0, on the word chooses the same entry. -/
def Obligations.AtMostOneEntryClaimsAWord : Prop :=
  (∀ (w : Word) (e₁ e₂ : Entry), e₁.claims w = true → e₂.claims w = true → e₁ = e₂) ∧
  (∀ (w : Word) (es : List Entry), es.Perm dispatchTable → es.find? (fun e => e.claims w) = dispatch w) ∧
  ∀ w : Word, dispatchByClass w = dispatch w

/-- R94: a word is rejected, by name and with the word, exactly when its class is one of the eleven illegal ones, or
its class is 0 and it is neither 00E0 nor 00EE. -/
def Obligations.IllegalWordsAreExactlyTheUnclaimed : Prop :=
  ∀ w : Word, decodeWord w = .error (.unknownInstruction w) ↔
    (fieldClass w = 0 ∧ w ≠ 0x00E0 ∧ w ≠ 0x00EE) ∨
    (fieldClass w ≠ 0 ∧ fieldClass w ≠ 2 ∧ fieldClass w ≠ 6 ∧ fieldClass w ≠ 0xA ∧ fieldClass w ≠ 0xD)

/-- R92, sanity: words written out from the encoding table decode to the instructions they stand for. -/
def Obligations.WordsOfTheEncodingTableDecode : Prop :=
  decodeWord 0x00E0 = .ok .cls ∧ decodeWord 0x00EE = .ok .ret ∧ decodeWord 0x2ABC = .ok (.call 0xABC) ∧
  decodeWord 0x612A = .ok (.ldVx 1 0x2A) ∧ decodeWord 0xA014 = .ok (.ldI 0x014) ∧
  decodeWord 0xDF05 = .ok (.drw 0xF 0 5) ∧ decodeWord 0x1234 = .error (.unknownInstruction 0x1234)

/-- R91: operands are the word's fields, read as unsigned numbers with no extension, scaling or shifting, and NNN is
zero-extended to 16 bits. -/
def Obligations.OperandsAreFieldsOfTheWord : Prop :=
  (∀ w : Word,
    (fieldClass w).toNat = w.toNat / 0x1000 ∧ (fieldX w).toNat = w.toNat / 0x100 % 0x10 ∧
    (fieldY w).toNat = w.toNat / 0x10 % 0x10 ∧ (fieldN w).toNat = w.toNat % 0x10 ∧
    (fieldKK w).toNat = w.toNat % 0x100 ∧ (fieldNNN w).toNat = w.toNat % 0x1000) ∧
  (∀ nnn : Addr12, (zext16 nnn).toNat = nnn.toNat) ∧
  ∀ (w : Word) (i : Instr), decodeWord w = .ok i →
    match i with
    | .cls => w = 0x00E0
    | .ret => w = 0x00EE
    | .call nnn => nnn = fieldNNN w
    | .ldVx x kk => x = fieldX w ∧ kk = fieldKK w
    | .ldI nnn => nnn = fieldNNN w
    | .drw x y n => x = fieldX w ∧ y = fieldY w ∧ n = fieldN w

/-- R100: each assembler line gives the word of its encoding column when every operand fits its field, and is refused
otherwise. -/
def Obligations.AssemblerLinesGiveTheirEncoding : Prop :=
  AsmLine.cls.assemble = some 0x00E0 ∧ AsmLine.ret.assemble = some 0x00EE ∧
  (∀ nnn : Nat,
    (nnn < 0x1000 → ∃ w, (AsmLine.call nnn).assemble = some w ∧ w.toNat = 0x2000 + nnn) ∧
    (nnn < 0x1000 → ∃ w, (AsmLine.ldI nnn).assemble = some w ∧ w.toNat = 0xA000 + nnn) ∧
    (0x1000 ≤ nnn → (AsmLine.call nnn).assemble = none ∧ (AsmLine.ldI nnn).assemble = none)) ∧
  (∀ x kk : Nat,
    (x < 16 ∧ kk < 0x100 →
      ∃ w, (AsmLine.ldVx x kk).assemble = some w ∧ w.toNat = 0x6000 + x * 0x100 + kk) ∧
    (¬ (x < 16 ∧ kk < 0x100) → (AsmLine.ldVx x kk).assemble = none)) ∧
  (∀ x y n : Nat,
    (x < 16 ∧ y < 16 ∧ n < 16 →
      ∃ w, (AsmLine.drw x y n).assemble = some w ∧ w.toNat = 0xD000 + x * 0x100 + y * 0x10 + n) ∧
    (¬ (x < 16 ∧ y < 16 ∧ n < 16) → (AsmLine.drw x y n).assemble = none)) ∧
  ∀ word : Nat,
    (word < 0x10000 → ∃ w, (AsmLine.dw word).assemble = some w ∧ w.toNat = word) ∧
    (0x10000 ≤ word → (AsmLine.dw word).assemble = none)

/-! ### Devices, router and memory primitives -/

/-- 20_memory.md R52, R53, R54, R55: device reads and writes inside the capacity give and set the bytes named and no
others; past it they fail with OutOfRange, a range whole. -/
def Obligations.DeviceAccessesActInsideTheCapacityOnly : Prop :=
  ∀ (d : DeviceId) (m : Memory) (off : Nat),
    (capacity d ≤ off → devRead d m off = .error .outOfRange ∧ ∀ b, devWrite d m off b = .error .outOfRange) ∧
    (off < capacity d → devRead d m off = .ok (byteOf d m off) ∧
      ∀ b, ∃ m', devWrite d m off b = .ok m' ∧ ∀ a, byteOf d m' a = if a = off then b else byteOf d m a) ∧
    (∀ len, capacity d < off + len → devReadRange d m off len = .error .outOfRange) ∧
    (∀ len, off + len ≤ capacity d → ∃ bs, devReadRange d m off len = .ok bs ∧ bs.length = len ∧
      ∀ k, k < len → bs[k]? = some (byteOf d m (off + k))) ∧
    (∀ vs, capacity d < off + vs.length → devWriteRange d m off vs = .error .outOfRange) ∧
    ∀ vs, off + vs.length ≤ capacity d → ∃ m', devWriteRange d m off vs = .ok m' ∧
      ∀ a, byteOf d m' a = if off ≤ a ∧ a < off + vs.length then vs.getD (a - off) 0 else byteOf d m a

/-- R56: DevReset sets every byte of a device to 0, and both devices' operations keep the canonical form. -/
def Obligations.DeviceWritesKeepTheCanonicalForm : Prop :=
  ∀ d : DeviceId,
    ((devReset d).wf d ∧ ∀ off, off < capacity d → byteOf d (devReset d) off = 0) ∧
    ∀ m : Memory, m.wf d →
      (∀ off b m', devWrite d m off b = .ok m' → m'.wf d) ∧
      ∀ off vs m', devWriteRange d m off vs = .ok m' → m'.wf d

/-- The canonical form is canonical (the model's own choice of representation, log 9): two well-formed memories of a
device whose bytes read the same are the same data. -/
def Obligations.EqualBytesAreEqualMemories : Prop :=
  ∀ (d : DeviceId) (m m' : Memory), m.wf d → m'.wf d →
    (∀ off, off < capacity d → byteOf d m off = byteOf d m' off) → m = m'

/-- R58, R59, R60: a misaligned start fails first, with InvalidRegionAlignment; then a bad size, a mapping past the
device or a unit already mapped is refused; else the new region is recorded for exactly the addresses of its span and
every other address resolves as before. -/
def Obligations.RegistrationChecksThenRecords : Prop :=
  ∀ (rt : RegionTable) (start size : Nat) (d : DeviceId) (devOffset : Nat),
    (start ≠ 0 ∧ start % 0x100 ≠ 0 →
      registerRegion rt start size d devOffset = .error (.invalidRegionAlignment start)) ∧
    (start % 0x100 = 0 →
      (size = 0 ∨ size % 0x100 ≠ 0 ∨ capacity d < devOffset + size ∨
        ∃ a, start ≤ a ∧ a < start + size ∧ (regionOf rt a).isSome) →
      ∃ e, registerRegion rt start size d devOffset = .error e ∧ e.faultInfo = none) ∧
    (start % 0x100 = 0 → size ≠ 0 → size % 0x100 = 0 → devOffset + size ≤ capacity d →
      (∀ a, start ≤ a → a < start + size → regionOf rt a = none) →
      ∃ rt', registerRegion rt start size d devOffset = .ok rt' ∧
        ∀ a, regionOf rt' a =
          if start ≤ a ∧ a < start + size then some ⟨start, 0x100, ⟨d, size, devOffset⟩⟩ else regionOf rt a)

/-- 60_exceptions.md R182 with R64, R65, R68: under any region table, an access that translates past its device's
capacity answers AddressOutOfRange with the address; but no table that registration builds (R60) translates a mapped
address there, so in this hardware no access raises it. -/
def Obligations.AddressOutOfRangeNeedsAnUnregisteredTable : Prop :=
  (∀ (rt : RegionTable) (s : State) (a : Nat) (r : Region), regionOf rt a = some r →
    (capacity r.mapping.dev ≤ r.offset a →
      routerRead rt s a = .error (.addressOutOfRange a) ∧
      ∀ b, routerWrite rt s a b = .error (.addressOutOfRange a)) ∧
    ∀ n, capacity r.mapping.dev < r.offset a + min n (r.remaining a) →
      routerReadRange rt s a n = .error (.addressOutOfRange a)) ∧
  (∀ (rt rt' : RegionTable) (start size : Nat) (d : DeviceId) (devOffset : Nat),
    (∀ a r, regionOf rt a = some r → r.offset a < capacity r.mapping.dev) →
    registerRegion rt start size d devOffset = .ok rt' →
    ∀ a r, regionOf rt' a = some r → r.offset a < capacity r.mapping.dev) ∧
  ∀ a r, regionOf fixedMap a = some r → r.offset a < capacity r.mapping.dev

/-- R61: reset's two registrations succeed and give the fixed map: RAM in units 0x00 to 0x0F, the framebuffer in units
0xF8 to 0xFF, nothing in units 0x10 to 0xF7. -/
def Obligations.ResetRegistersTheFixedMap : Prop :=
  buildMap = .ok fixedMap ∧
  ∀ a : Nat, a < 0x10000 →
    regionOf fixedMap a =
      if a / 0x100 ≤ 0x0F then some ⟨0x0000, 0x100, ⟨.ram, 0x1000, 0⟩⟩
      else if 0xF8 ≤ a / 0x100 then some ⟨0xF800, 0x100, ⟨.fb, 0x0800, 0⟩⟩
      else none

/-- R64 to R67, R77 (the source's router.read after router.write): a byte written to a mapped address is the byte read
there next; every other address reads as before, and no register changes. -/
def Obligations.ReadAfterWriteGivesTheByteWritten : Prop :=
  ∀ (s : State) (a : Nat) (b : Byte), a < 0x1000 ∨ (0xF800 ≤ a ∧ a < 0x10000) →
    ∃ t, memWrite1 s a b = .ok t ∧ memRead1 t a = .ok b ∧
      (∀ a', a' ≠ a → memRead1 t a' = memRead1 s a') ∧
      t = { s with ram := t.ram, fb := t.fb }

/-- R66, R67, R70, R71 with 60_exceptions.md R181: an access of any size at an unmapped address raises AddressInvalid
with the address; at a mapped address a single access succeeds and a range access can only be short. -/
def Obligations.UnmappedAccessesRaiseAddressInvalid : Prop :=
  ∀ (s : State) (a : Nat), a < 0x10000 →
    (0x1000 ≤ a ∧ a < 0xF800 →
      memRead1 s a = .error (.addressInvalid a) ∧ (∀ b, memWrite1 s a b = .error (.addressInvalid a)) ∧
      (∀ n, memRead s a n = .error (.addressInvalid a)) ∧ ∀ vs, memWrite s a vs = .error (.addressInvalid a)) ∧
    (¬ (0x1000 ≤ a ∧ a < 0xF800) →
      (∃ b, memRead1 s a = .ok b) ∧ (∀ b, ∃ t, memWrite1 s a b = .ok t) ∧
      (∀ n f, memRead s a n = .error f → f.kind = .shortRead) ∧
      ∀ vs f, memWrite s a vs = .error f → f.kind = .shortRead)

/-- R68, R70: a range that fits its region is read whole; one that does not is cut by the router and is a ShortRead
fault for the core. -/
def Obligations.RangeReadsAreWholeOrShort : Prop :=
  ∀ lo hi : Nat, (lo, hi) ∈ [(0x0000, 0x1000), (0xF800, 0x10000)] →
    ∀ (s : State) (a n : Nat), lo ≤ a → a < hi →
      (a + n ≤ hi → ∃ bs, memRead s a n = .ok bs ∧ routerReadRange fixedMap s a n = .ok bs ∧ bs.length = n ∧
        ∀ k b, bs[k]? = some b → memRead1 s (a + k) = .ok b) ∧
      (hi < a + n → memRead s a n = .error (.shortRead a n (hi - a)) ∧
        ∃ bs, routerReadRange fixedMap s a n = .ok bs ∧ bs.length = hi - a ∧
          ∀ k b, bs[k]? = some b → memRead1 s (a + k) = .ok b)

/-- R69, R71: MemWrite writes all its bytes or, with ShortRead, none; the router's range write drops the bytes past
the region's end. -/
def Obligations.RangeWritesAreWholeOrNothing : Prop :=
  ∀ lo hi : Nat, (lo, hi) ∈ [(0x0000, 0x1000), (0xF800, 0x10000)] →
    ∀ (s : State) (a : Nat) (vs : List Byte), lo ≤ a → a < hi →
      (a + vs.length ≤ hi → ∃ t, memWrite s a vs = .ok t ∧ routerWriteRange fixedMap s a vs = .ok t) ∧
      (hi < a + vs.length → memWrite s a vs = .error (.shortRead a vs.length (hi - a))) ∧
      ∃ t, routerWriteRange fixedMap s a vs = .ok t ∧ t = { s with ram := t.ram, fb := t.fb } ∧
        ∀ a', memRead1 t a' =
          if a ≤ a' ∧ a' < a + vs.length ∧ a' < hi then .ok (vs.getD (a' - a) 0) else memRead1 s a'

/-- 41_display.md R132: pixel (x, y) is the byte at 0xF800 + 64y + x, inside the framebuffer's range; different pixels
are different bytes, and every framebuffer byte is a pixel. -/
def Obligations.PixelsAreTheFramebufferBytes : Prop :=
  (∀ px py : Nat, px < 64 → py < 32 →
    pixelAddr px py = 0xF800 + 64 * py + px ∧ 0xF800 ≤ pixelAddr px py ∧ pixelAddr px py < 0x10000 ∧
    ∀ s : State, memRead1 s (pixelAddr px py) = .ok (s.pixel px py)) ∧
  (∀ px py qx qy : Nat, px < 64 → py < 32 → qx < 64 → qy < 32 →
    pixelAddr px py = pixelAddr qx qy → px = qx ∧ py = qy) ∧
  ∀ a : Nat, 0xF800 ≤ a → a < 0x10000 → ∃ px py, px < 64 ∧ py < 32 ∧ a = pixelAddr px py

/-! ### The call stack -/

/-- 10_state.md R29: Push appends at the top and answers true; at capacity it answers false and changes nothing. -/
def Obligations.PushAppendsOrAnswersFalse : Prop :=
  ∀ (s : State) (w : Word),
    (s.stack.length = 16 → s.push w = (s, false)) ∧
    (s.stack.length < 16 → s.push w = ({ s with stack := s.stack ++ [w] }, true))

/-- R30: Pop removes and answers the top; on an empty stack it answers (0, false) and changes nothing. -/
def Obligations.PopRemovesTheTopOrAnswersFalse : Prop :=
  ∀ s : State,
    (s.stack = [] → s.pop = (0x0000, false, s)) ∧
    ∀ ws w, s.stack = ws ++ [w] → s.pop = (w, true, { s with stack := ws })

/-! ### The six instructions: result, frame and completion -/

/-- 43_loads.md R171: 6XKK sets V[X] to KK, VF included, and changes nothing else; it always completes. -/
def Obligations.LoadVxSetsOneRegister : Prop :=
  ∀ (x : Nibble) (kk : Byte) (s : State), ∃ t, exec (.ldVx x kk) s = .next t ∧
    (∀ y, t.reg y = if y = x then kk else s.reg y) ∧
    t.index = s.index ∧ t.pc = s.pc ∧ t.stack = s.stack ∧ t.dt = s.dt ∧ t.lastOpcode = s.lastOpcode ∧
    t.dirty = s.dirty ∧ SameBytes s t ∧ TickCompleted s t

/-- R170: ANNN sets I to NNN, zero-extended, and changes nothing else; it always completes. -/
def Obligations.LoadISetsTheIndexRegister : Prop :=
  ∀ (nnn : Addr12) (s : State), ∃ t, exec (.ldI nnn) s = .next t ∧ t.index.toNat = nnn.toNat ∧
    (∀ y, t.reg y = s.reg y) ∧ t.pc = s.pc ∧ t.stack = s.stack ∧ t.dt = s.dt ∧
    t.lastOpcode = s.lastOpcode ∧ t.dirty = s.dirty ∧ SameBytes s t ∧ TickCompleted s t

/-- 42_flow.md R151: with room on the stack, 2NNN pushes PC, which the fetch has advanced, jumps to NNN, changes
nothing else and completes. -/
def Obligations.CallPushesPcAndJumps : Prop :=
  ∀ (nnn : Addr12) (s : State), s.stack.length < 16 → ∃ t, exec (.call nnn) s = .next t ∧
    t.stack = s.stack ++ [s.pc] ∧ t.pc.toNat = nnn.toNat ∧
    (∀ y, t.reg y = s.reg y) ∧ t.index = s.index ∧ t.dt = s.dt ∧ t.lastOpcode = s.lastOpcode ∧
    t.dirty = s.dirty ∧ SameBytes s t ∧ TickCompleted s t

/-- 60_exceptions.md R184: 2NNN on a full stack raises StackOverflow; nothing is pushed and PC is not set to NNN. The
state left is R117's of 40_core_cycle.md, the record R189's. That the record takes its opcode from lastOpcode and pc0 as
PC - 2 is the model's inference (DEDUCED, log 12); the fields result and firstFault are the model's own (DESIGN CHOICE,
log 1, log 2). -/
def Obligations.CallOnAFullStackOverflows : Prop :=
  ∀ (nnn : Addr12) (s : State), s.stack.length = 16 → ∃ t, exec (.call nnn) s = .next t ∧
    TickFaulted s t ⟨4, .stackOverflow, 0, 0, 0, s.lastOpcode, true, s.pc - 2⟩ ∧
    t.pc = s.pc ∧ t.lastOpcode = s.lastOpcode ∧ SameButPc s t

/-- 42_flow.md R150: with an entry on the stack, 00EE pops it into PC, changes nothing else and completes. -/
def Obligations.RetPopsTheStackIntoPc : Prop :=
  ∀ (s : State) (ws : List Word) (w : Word), s.stack = ws ++ [w] → ∃ t, exec .ret s = .next t ∧
    t.stack = ws ∧ t.pc = w ∧
    (∀ y, t.reg y = s.reg y) ∧ t.index = s.index ∧ t.dt = s.dt ∧ t.lastOpcode = s.lastOpcode ∧
    t.dirty = s.dirty ∧ SameBytes s t ∧ TickCompleted s t

/-- 60_exceptions.md R185: 00EE on an empty stack raises StackUnderflow; PC is not changed by the stack. The state left
is R117's of 40_core_cycle.md, the record R189's. That the record takes its opcode from lastOpcode and pc0 as PC - 2 is
the model's inference (DEDUCED, log 12); the fields result and firstFault are the model's own (DESIGN CHOICE, log 1,
log 2). -/
def Obligations.RetOnAnEmptyStackUnderflows : Prop :=
  ∀ s : State, s.stack = [] → ∃ t, exec .ret s = .next t ∧
    TickFaulted s t ⟨5, .stackUnderflow, 0, 0, 0, s.lastOpcode, true, s.pc - 2⟩ ∧
    t.pc = s.pc ∧ t.lastOpcode = s.lastOpcode ∧ SameButPc s t

/-- 41_display.md R130: 00E0 zeroes every framebuffer byte whatever it held, changes nothing else, the dirty flag
included, and always completes. -/
def Obligations.ClsZeroesTheFramebuffer : Prop :=
  ∀ s : State, ∃ t, exec .cls s = .next t ∧
    (∀ a, memRead1 t a = if 0xF800 ≤ a ∧ a < 0x10000 then .ok 0 else memRead1 s a) ∧
    (∀ y, t.reg y = s.reg y) ∧ t.index = s.index ∧ t.pc = s.pc ∧ t.stack = s.stack ∧ t.dt = s.dt ∧
    t.lastOpcode = s.lastOpcode ∧ t.dirty = s.dirty ∧ TickCompleted s t

/-- R131, R133, R134: when the N sprite bytes at I can be read, DXYN completes; every pixel becomes what R133 tabulates
for the sprite bit that falls on it, drawn at the values V[X] and V[Y] had, clipped; VF is 1 exactly when a lit pixel
was under a 1 bit; dirty is set; nothing else changes. -/
def Obligations.DrwXorsTheSpriteOntoTheFramebuffer : Prop :=
  ∀ (x y n : Nibble) (s : State) (sprite : List Byte), memRead s s.index.toNat n.toNat = .ok sprite →
    ∃ t, exec (.drw x y n) s = .next t ∧
      (∀ px py, px < 64 → py < 32 →
        memRead1 t (0xF800 + 64 * py + px) =
          .ok (pixelAfter (spriteBit sprite (s.reg x).toNat (s.reg y).toNat px py) (s.pixel px py))) ∧
      (∀ a, ¬ (0xF800 ≤ a ∧ a < 0x10000) → memRead1 t a = memRead1 s a) ∧
      (s.Collides (spriteBit sprite (s.reg x).toNat (s.reg y).toNat) → t.reg 0xF = 1) ∧
      (¬ s.Collides (spriteBit sprite (s.reg x).toNat (s.reg y).toNat) → t.reg 0xF = 0) ∧
      (∀ z, z ≠ 0xF → t.reg z = s.reg z) ∧ t.dirty = true ∧
      t.index = s.index ∧ t.pc = s.pc ∧ t.stack = s.stack ∧ t.dt = s.dt ∧ t.lastOpcode = s.lastOpcode ∧
      TickCompleted s t

/-- R131, 20_memory.md R70: DXYN completes exactly when the N bytes at I lie in one region. -/
def Obligations.DrwCompletesExactlyWhenTheSpriteFits : Prop :=
  ∀ (x y n : Nibble) (s : State),
    (∃ t, exec (.drw x y n) s = .next t ∧ TickCompleted s t) ↔
      (s.index.toNat < 0x1000 ∧ s.index.toNat + n.toNat ≤ 0x1000) ∨
      (0xF800 ≤ s.index.toNat ∧ s.index.toNat + n.toNat ≤ 0x10000)

/-- R131, 60_exceptions.md R187: DXYN whose sprite runs past the end of RAM raises ShortRead(I, N, 0x1000 - I) and
changes nothing: no pixel, not VF, not dirty. The state left is R117's of 40_core_cycle.md, the record R189's. That the
record takes its opcode from lastOpcode and pc0 as PC - 2 is the model's inference (DEDUCED, log 12); the fields result
and firstFault are the model's own (DESIGN CHOICE, log 1, log 2). I outside RAM is left to
DrwCompletesExactlyWhenTheSpriteFits and EachInstructionRaisesOnlyItsFaults. -/
def Obligations.DrwPastTheEndOfRamIsAShortRead : Prop :=
  ∀ (x y n : Nibble) (s : State), s.index.toNat < 0x1000 → 0x1000 < s.index.toNat + n.toNat →
    ∃ t, exec (.drw x y n) s = .next t ∧
      TickFaulted s t ⟨7, .shortRead, s.index, n.toNat, 0x1000 - s.index.toNat, s.lastOpcode, true, s.pc - 2⟩ ∧
      t.pc = s.pc ∧ t.lastOpcode = s.lastOpcode ∧ SameButPc s t

/-- The source's property that a second draw at the same place restores the screen, in general (R131, R133,
95_test_vectors.md E5): from a state of a run, with neither coordinate register VF. The second VF says whether the
first draw lit a pixel. -/
def Obligations.DrawingTwiceRestoresEveryPixel : Prop :=
  ∀ (x y n : Nibble) (s : State) (sprite : List Byte), s.Inv → x ≠ 0xF → y ≠ 0xF →
    memRead s s.index.toNat n.toNat = .ok sprite →
    ∃ t u, exec (.drw x y n) s = .next t ∧ exec (.drw x y n) t = .next u ∧
      t.result = some .ok ∧ u.result = some .ok ∧
      (∀ px py, px < 64 → py < 32 → u.pixel px py = s.pixel px py) ∧
      (u.reg 0xF = 1 ↔ ∃ px py, px < 64 ∧ py < 32 ∧
        spriteBit sprite (s.reg x).toNat (s.reg y).toNat px py = true ∧ s.pixel px py = 0)

/-! ### The tick -/

/-- 40_core_cycle.md R111, R113, R114: when the two bytes at PC decode to an instruction, the step is that instruction's
execution from the state with PC advanced by 2, modulo 2^16, and the word in lastOpcode. -/
def Obligations.StepRunsTheDecodedInstruction : Prop :=
  ∀ (s : State) (b0 b1 : Byte) (i : Instr), memRead s s.pc.toNat 2 = .ok [b0, b1] →
    decode [b0, b1] = .ok (i, []) →
    step s = exec i { s with pc := s.pc + 2, lastOpcode := wordOfBytes b0 b1 }

/-- R112, 20_memory.md R72: the fetched word is the byte at PC, high, and the byte at PC + 1, low, whenever both are
mapped. PC may be odd. -/
def Obligations.FetchIsTheBigEndianWordAtPc : Prop :=
  ∀ (s : State) (b0 b1 : Byte), memRead1 s s.pc.toNat = .ok b0 → memRead1 s (s.pc.toNat + 1) = .ok b1 →
    ∃ w, fetchWord s = .ok w ∧ w.toNat = b0.toNat * 0x100 + b1.toNat

/-- R112, R117: a fetch from an unmapped PC raises AddressInvalid, one from the last byte of a region ShortRead(PC, 2,
1); the tick changes no architectural state, and the record (R189) has opcode 0, not valid. Any other fetch gives a word.
The fields result and firstFault are the model's own (DESIGN CHOICE, log 1, log 2). -/
def Obligations.FetchFaultsChangeNothing : Prop :=
  ∀ s : State,
    (0x1000 ≤ s.pc.toNat ∧ s.pc.toNat < 0xF800 →
      ∃ t, step s = .next t ∧ TickFaulted s t ⟨1, .addressInvalid, s.pc, 0, 0, 0, false, s.pc⟩ ∧
        SameObservable s t ∧ t.dt = s.dt) ∧
    (s.pc = 0x0FFF ∨ s.pc = 0xFFFF →
      ∃ t, step s = .next t ∧ TickFaulted s t ⟨7, .shortRead, s.pc, 2, 1, 0, false, s.pc⟩ ∧
        SameObservable s t ∧ t.dt = s.dt) ∧
    (s.pc.toNat < 0x0FFF ∨ (0xF800 ≤ s.pc.toNat ∧ s.pc.toNat < 0xFFFF) → ∃ w, fetchWord s = .ok w)

/-- 60_exceptions.md R186, 40_core_cycle.md R116: a fetched word that no entry claims ends the tick with
UnknownInstruction carrying the word; PC keeps the fetch advance, lastOpcode is the word, nothing else changes (R116,
R117); the record is R189's. The fields result and firstFault are the model's own (DESIGN CHOICE, log 1, log 2). -/
def Obligations.UnclaimedWordRaisesUnknownInstruction : Prop :=
  ∀ (s : State) (w : Word), fetchWord s = .ok w → (∀ e : Entry, e.claims w = false) →
    ∃ t, step s = .next t ∧ TickFaulted s t ⟨6, .unknownInstruction, 0, 0, 0, w, true, s.pc⟩ ∧
      t.pc = s.pc + 2 ∧ t.lastOpcode = w ∧ SameButPc s t

/-- R117: the state after any tick that faults: nothing changed after a fetch fault; PC + 2 and the word in lastOpcode
after any other; the counter not incremented; the record's opcode and pc0 as R189 says. The fields result and firstFault
are the model's own (DESIGN CHOICE, log 1, log 2). -/
def Obligations.FaultingTickKeepsTheState : Prop :=
  ∀ (s t : State) (r : FaultRecord), step s = .next t → t.result = some (.fault r) →
    TickFaulted s t r ∧ SameButPc s t ∧ r.pc0 = s.pc ∧
    ((r.opcodeValid = false ∧ r.opcode = 0 ∧ t.pc = s.pc ∧ t.lastOpcode = s.lastOpcode) ∨
     (r.opcodeValid = true ∧ t.pc = s.pc + 2 ∧ t.lastOpcode = r.opcode ∧ fetchWord s = .ok r.opcode))

/-- R118, R34 of 10_state.md: a tick that completes fetched a legal word, left it in lastOpcode and counted one.
That it completed is seen in the model's own field result (DESIGN CHOICE, log 1). -/
def Obligations.CompletedTickCountsOne : Prop :=
  ∀ s t : State, step s = .next t → t.result = some .ok →
    TickCompleted s t ∧ ∃ w i, fetchWord s = .ok w ∧ decodeWord w = .ok i ∧ t.lastOpcode = w

/-- R119, 60_exceptions.md R193: the core never halts itself: from every state a step answers a next state, and that
tick has exactly one result, in the model's own field result (DESIGN CHOICE, log 1). -/
def Obligations.EveryTickAnswersAResult : Prop :=
  ∀ s : State, ∃ t r, step s = .next t ∧ t.result = some r

/-- R115, 30_encoding.md R97, R99: asking the table's entries in their order and running the first that claims gives
the same tick as decoding the word and executing the instruction. -/
def Obligations.DispatchLoopAgreesWithStep : Prop :=
  ∀ (s : State) (w : Word), fetchWord s = .ok w → step s = .next (runDispatchLoop w (s.fetched w))

/-- 60_exceptions.md R188: the faults each instruction can raise, and no others. A state of no run, with I outside RAM,
can give DRW an AddressInvalid. -/
def Obligations.EachInstructionRaisesOnlyItsFaults : Prop :=
  ∀ (i : Instr) (s t : State) (r : FaultRecord), exec i s = .next t → t.result = some (.fault r) →
    match i with
    | .cls => False
    | .ret => r.kind = .stackUnderflow
    | .call _ => r.kind = .stackOverflow
    | .ldVx _ _ => False
    | .ldI _ => False
    | .drw _ _ _ => r.kind = .shortRead ∨ (r.kind = .addressInvalid ∧ 0x1000 ≤ s.index.toNat)

/-- R181, R182, R183, R187: in the states of a run, a tick never raises AddressOutOfRange or InvalidRegionAlignment,
raises AddressInvalid only at PC = 0x1000, and ShortRead only by a fetch at 0x0FFF or a draw past the end of RAM. -/
def Obligations.FaultsOfARunAreTheReachableOnes : Prop :=
  ∀ (s t : State) (r : FaultRecord), s.Inv → step s = .next t → t.result = some (.fault r) →
    r.kind ≠ .addressOutOfRange ∧ r.kind ≠ .invalidRegionAlignment ∧
    (r.kind = .addressInvalid → s.pc = 0x1000) ∧
    (r.kind = .shortRead → s.pc = 0x0FFF ∨
      (fieldClass r.opcode = 0xD ∧ 0x1000 < s.index.toNat + (fieldN r.opcode).toNat))

/-- R180, R189: the record's code, kind, addr, n and m for each fault kind. -/
def Obligations.FaultRecordsCarryTheirInfo : Prop :=
  ∀ (op pc0 : Word) (v : Bool) (a n m : Nat) (w : Word),
    faultRecord (.addressInvalid a) op v pc0 = ⟨1, .addressInvalid, BitVec.ofNat 16 a, 0, 0, op, v, pc0⟩ ∧
    faultRecord (.addressOutOfRange a) op v pc0 = ⟨2, .addressOutOfRange, BitVec.ofNat 16 a, 0, 0, op, v, pc0⟩ ∧
    faultRecord (.invalidRegionAlignment a) op v pc0 =
      ⟨3, .invalidRegionAlignment, BitVec.ofNat 16 a, 0, 0, op, v, pc0⟩ ∧
    faultRecord .stackOverflow op v pc0 = ⟨4, .stackOverflow, 0, 0, 0, op, v, pc0⟩ ∧
    faultRecord .stackUnderflow op v pc0 = ⟨5, .stackUnderflow, 0, 0, 0, op, v, pc0⟩ ∧
    faultRecord (.unknownInstruction w) op v pc0 = ⟨6, .unknownInstruction, 0, 0, 0, op, v, pc0⟩ ∧
    faultRecord (.shortRead a n m) op v pc0 = ⟨7, .shortRead, BitVec.ofNat 16 a, n, m, op, v, pc0⟩ ∧
    TickResult.ok.code = 0

/-- 20_memory.md R76, R79, 10_state.md R33: no tick changes a byte of RAM or DT, so the font and the program stay. -/
def Obligations.NoTickChangesRamOrDt : Prop :=
  ∀ s t : State, step s = .next t → t.ram = s.ram ∧ t.dt = s.dt ∧ ∀ a, a < 0x1000 → memRead1 t a = memRead1 s a

/-- 40_core_cycle.md R120, 10_state.md R33: a tick's result and every observable field after it depend on the observable
fields before it alone: not on DT, and not on the model's own fields. -/
def Obligations.TickDependsOnObservableStateOnly : Prop :=
  ∀ s s' t : State, SameObservable s s' → step s = .next t →
    ∃ t', step s' = .next t' ∧ SameObservable t t' ∧ t'.result = t.result

/-! ### Invariants -/

/-- The invariant holds right after reset. -/
def Obligations.InvariantHoldsAtReset : Prop := State.reset.Inv

/-- 20_memory.md R79, R81, 10_state.md R24, R27, R28, 42_flow.md R150: every step keeps the invariant: both memories in
canonical form, every framebuffer byte 0 or 1, at most 16 stack entries, PC and every return address at most 0x1000, I
at most 0x0FFF. -/
def Obligations.EveryStepKeepsTheInvariant : Prop :=
  ∀ s t : State, s.Inv → step s = .next t → t.Inv

/-- 60_exceptions.md R200 to R207: every action of the host keeps the invariant, so it holds in every state that any
sequence of actions reaches from reset. -/
def Obligations.EveryHostActionKeepsTheInvariant : Prop :=
  (∀ (act : HostAction) (s : State), s.Inv → (act.apply s).1.Inv) ∧
  ∀ acts : List HostAction, (applyAll acts State.reset).Inv

/-! ### Reset and the host -/

/-- 70_reset_and_hazards.md R210, 60_exceptions.md R207: the reset sequence, from any state, gives the reset state. -/
def Obligations.ResetSequenceGivesTheResetState : Prop :=
  ∀ s : State, HostAction.reset.apply s = (State.reset, .none)

/-- 70_reset_and_hazards.md R214: the core's registers after reset. -/
def Obligations.RegistersAfterReset : Prop :=
  ∀ s : State, ∃ t, HostAction.reset.apply s = (t, .none) ∧
    (∀ x, t.reg x = 0x00) ∧ t.index = 0x0000 ∧ t.pc = 0x0200 ∧ t.stack = [] ∧ t.ticks = 0 ∧ t.dt = 0 ∧
    t.lastOpcode = 0x0000 ∧ t.dirty = false

/-- R211, R212, R213: memory after reset: the glyphs of the sixteen digits at 0x000 to 0x04F, 0 in the rest of RAM, 0 in
every framebuffer byte. Digits 1 to F are the spec's general-knowledge glyphs (log 6). -/
def Obligations.MemoryAfterReset : Prop :=
  ∀ s : State, ∃ t, HostAction.reset.apply s = (t, .none) ∧
    (∀ d row b, row < 5 →
      ([[0xF0, 0x90, 0x90, 0x90, 0xF0], [0x20, 0x60, 0x20, 0x20, 0x70], [0xF0, 0x10, 0xF0, 0x80, 0xF0],
        [0xF0, 0x10, 0xF0, 0x10, 0xF0], [0x90, 0x90, 0xF0, 0x10, 0x10], [0xF0, 0x80, 0xF0, 0x10, 0xF0],
        [0xF0, 0x80, 0xF0, 0x90, 0xF0], [0xF0, 0x10, 0x20, 0x40, 0x40], [0xF0, 0x90, 0xF0, 0x90, 0xF0],
        [0xF0, 0x90, 0xF0, 0x10, 0xF0], [0xF0, 0x90, 0xF0, 0x90, 0x90], [0xE0, 0x90, 0xE0, 0x90, 0xE0],
        [0xF0, 0x80, 0x80, 0x80, 0xF0], [0xE0, 0x90, 0x90, 0x90, 0xE0], [0xF0, 0x80, 0xF0, 0x80, 0xF0],
        [0xF0, 0x80, 0xF0, 0x80, 0x80]] : List (List Byte))[d]?.bind (fun g => g[row]?) = some b →
      memRead1 t (5 * d + row) = .ok b) ∧
    (∀ a, 0x050 ≤ a → a < 0x1000 → memRead1 t a = .ok 0x00) ∧
    ∀ a, 0xF800 ≤ a → a < 0x10000 → memRead1 t a = .ok 0x00

/-- R215: the first tick after reset with nothing loaded raises UnknownInstruction(0x0000), with PC = 0x202.
The record is R189's, its pc0 and opcode by the model's inference (DEDUCED, log 12), in the model's own field result
(DESIGN CHOICE, log 1). -/
def Obligations.FirstTickWithoutAProgramIsUnknown : Prop :=
  ∃ t, step State.reset = .next t ∧ t.pc = 0x0202 ∧
    t.result = some (.fault ⟨6, .unknownInstruction, 0, 0, 0, 0x0000, true, 0x0200⟩)

/-- 60_exceptions.md R201: Load writes its bytes to RAM when no tick has run since reset and they lie in 0x200 to the
end of RAM; otherwise it is refused and writes nothing. That a tick has run is seen by the model's own field result,
which a tick that faulted sets too (DESIGN CHOICE, log 1; DEDUCED, log 13). -/
def Obligations.LoadWritesTheProgramOrIsRefused : Prop :=
  ∀ (s : State) (a : Nat) (bytes : List Byte),
    (s.result = none ∧ 0x200 ≤ a ∧ a + bytes.length ≤ 0x1000 →
      ∃ t, (HostAction.load a bytes).apply s = (t, .loadOk) ∧ t = { s with ram := t.ram } ∧
        ∀ a', memRead1 t a' =
          if a ≤ a' ∧ a' < a + bytes.length then .ok (bytes.getD (a' - a) 0) else memRead1 s a') ∧
    (¬ (s.result = none ∧ 0x200 ≤ a ∧ a + bytes.length ≤ 0x1000) →
      (HostAction.load a bytes).apply s = (s, .loadRefused))

/-- R203: a snapshot changes nothing and shows ticks, lastOpcode, V, I, PC, the stack, dirty and the framebuffer's 2048
bytes in offset order. -/
def Obligations.SnapshotShowsTheState : Prop :=
  ∀ s : State, ∃ r, HostAction.snapshot.apply s = (s, .snapshot r) ∧
    r.ticks = s.ticks ∧ r.lastOpcode = s.lastOpcode ∧ r.v = s.v ∧ r.index = s.index ∧ r.pc = s.pc ∧
    r.stack = s.stack ∧ r.dirty = s.dirty ∧ r.fb.length = 2048 ∧
    ∀ k b, r.fb[k]? = some b → memRead1 s (0xF800 + k) = .ok b

/-- R204: AckDirty sets dirty to 0 and changes nothing else. -/
def Obligations.AckDirtyClearsTheFlag : Prop :=
  ∀ s : State, HostAction.ackDirty.apply s = ({ s with dirty := false }, .none)

/-- R205: TimerEvent takes 1 from DT, and leaves DT = 0 as it is; it changes nothing else. -/
def Obligations.TimerEventCountsDown : Prop :=
  ∀ s : State, ∃ t, HostAction.timerEvent.apply s = (t, .none) ∧ t = { s with dt := t.dt } ∧
    t.dt.toNat = s.dt.toNat - 1

/-- R206, R204, R205: the host changes V, I, PC, the stack, ticks and lastOpcode by Reset and Tick only, DT besides by
TimerEvent only, dirty besides by AckDirty only, RAM besides by Load only and not once a tick has run, and the
framebuffer by Reset and Tick only. That a tick has run is seen by the model's own field result, which a tick that
faulted sets too (DESIGN CHOICE, log 1; DEDUCED, log 13). -/
def Obligations.HostChangesNothingElse : Prop :=
  ∀ (act : HostAction) (s : State), act ≠ .reset → act ≠ .tick →
    (act.apply s).1.v = s.v ∧ (act.apply s).1.index = s.index ∧ (act.apply s).1.pc = s.pc ∧
    (act.apply s).1.stack = s.stack ∧ (act.apply s).1.ticks = s.ticks ∧
    (act.apply s).1.lastOpcode = s.lastOpcode ∧ (act.apply s).1.fb = s.fb ∧
    (act ≠ .timerEvent → (act.apply s).1.dt = s.dt) ∧
    (act ≠ .ackDirty → (act.apply s).1.dirty = s.dirty) ∧
    ((∀ a bytes, act ≠ .load a bytes) → (act.apply s).1.ram = s.ram) ∧
    (s.result ≠ none → (act.apply s).1.ram = s.ram)

/-! ### Runs -/

/-- 10_state.md R32: over any run, ticks counts the ticks that completed, modulo 2^64. -/
def Obligations.TickCounterCountsCompletedTicks : Prop :=
  ∀ (k : Nat) (s : State),
    (runTicks k s).1.ticks =
      s.ticks + BitVec.ofNat 64 ((runTicks k s).2.countP (fun r => r == some .ok))

/-- 93_implementation_defined.md U11 (the model's own field, log 2): over any run the first fault is recorded and never
cleared. -/
def Obligations.FirstFaultIsRecordedAndKept : Prop :=
  ∀ (k : Nat) (s : State),
    (runTicks k s).1.firstFault =
      match s.firstFault with
      | some r => some r
      | none => (runTicks k s).2.findSome? (fun o => o.bind TickResult.record?)

/-- 60_exceptions.md R208: the run to the first fault, within k ticks, is the run of some number of ticks up to k whose
last tick faulted and whose earlier ticks all completed; there is none when k ticks complete. How a
tick ended is seen in the model's own field result (DESIGN CHOICE, log 1). -/
def Obligations.RunToFaultEndsAtTheFirstFault : Prop :=
  ∀ (k : Nat) (s : State),
    (∀ t, runToFault k s = some t →
      ∃ j, j < k ∧ FaultFree j s ∧ t = (runTicks (j + 1) s).1 ∧ ∃ r, t.result = some (.fault r)) ∧
    (runToFault k s = none ↔ FaultFree k s)
end

