-- ==== Sys2Proof/Laws/Memory.lean ====
section
/-! SUPPORT. The device stores: what a byte reads as after an overwrite, and that every write keeps the canonical form
(20_memory.md R52 to R56). -/

namespace Sys2Proof.Machine

/-! ### Looking a byte up -/

theorem lookup_append (xs ys : Memory) (a : Nat) :
    lookup (xs ++ ys) a = (lookup xs a).or (lookup ys a) := by
  induction xs with
  | nil => simp [lookup]
  | cons c cs ih =>
    simp only [List.cons_append, lookup]
    split <;> simp [ih]

theorem lookup_filter (p : Nat → Bool) (m : Memory) (a : Nat) :
    lookup (m.filter (fun c => p c.1)) a = if p a then lookup m a else none := by
  induction m with
  | nil => simp [lookup]
  | cons c cs ih =>
    by_cases hc : c.1 = a
    · subst hc
      by_cases hp : p c.1 <;> simp [hp, lookup, ih]
    · by_cases hp : p c.1 <;> simp [hp, lookup, ih, hc]

theorem lookup_cellsOf (d : DeviceId) (off : Nat) (vs : List Byte) (a : Nat) :
    lookup (cellsOf d off vs) a =
      if off ≤ a then (vs[a - off]?).bind (fun b => if b = initByte d a then none else some b) else none := by
  induction vs generalizing off with
  | nil => simp [cellsOf, lookup]
  | cons b bs ih =>
    rcases Nat.lt_trichotomy a off with h | h | h
    · have h2 : ¬ off + 1 ≤ a := by omega
      have h3 : off ≠ a := by omega
      rw [if_neg (Nat.not_le.mpr h)]
      simp only [cellsOf]
      split <;> simp [lookup, ih, h2, h3]
    · subst h
      have h2 : ¬ a + 1 ≤ a := by omega
      simp only [cellsOf]
      split <;> simp_all [lookup]
    · have h2 : off + 1 ≤ a := by omega
      have h3 : off ≠ a := by omega
      rw [if_pos h.le]
      have h4 : a - off = (a - (off + 1)) + 1 := by omega
      simp only [cellsOf]
      split <;> simp [lookup, ih, h2, h3, h4]

/-- The cells for `vs` read as `vs` inside their range. -/
theorem lookup_cellsOf_getD (d : DeviceId) (off : Nat) (vs : List Byte) (a : Nat)
    (h1 : off ≤ a) (h2 : a < off + vs.length) :
    (lookup (cellsOf d off vs) a).getD (initByte d a) = vs[a - off] := by
  have h3 : a - off < vs.length := by omega
  simp only [lookup_cellsOf, h1, if_true, List.getElem?_eq_getElem h3, Option.bind_some]
  split <;> simp_all

/-- What a byte reads as after an overwrite: the new byte inside the range, the old one outside. -/
theorem byteOf_overwrite (d : DeviceId) (m : Memory) (off : Nat) (vs : List Byte) (a : Nat) :
    byteOf d (overwrite d m off vs) a =
      if h : off ≤ a ∧ a < off + vs.length then vs[a - off]'(by omega) else byteOf d m a := by
  have hlt := lookup_filter (fun k => decide (k < off)) m a
  have hge := lookup_filter (fun k => decide (off + vs.length ≤ k)) m a
  simp only [byteOf, overwrite, lookup_append, hlt, hge]
  by_cases h1 : off ≤ a
  · by_cases h2 : a < off + vs.length
    · have e1 : ¬ a < off := by omega
      have e2 : ¬ off + vs.length ≤ a := by omega
      simp [h1, h2, e1, e2, lookup_cellsOf_getD]
    · have e1 : ¬ a < off := by omega
      have e2 : off + vs.length ≤ a := by omega
      have e3 : vs[a - off]? = none := List.getElem?_eq_none (by omega)
      simp [h2, e1, e2, lookup_cellsOf, e3]
  · have e1 : a < off := by omega
    have e2 : ¬ off + vs.length ≤ a := by omega
    simp [h1, e1, e2, lookup_cellsOf]

/-- A single byte written reads back; the others are as before. -/
theorem byteOf_overwrite_one (d : DeviceId) (m : Memory) (off : Nat) (b : Byte) (a : Nat) :
    byteOf d (overwrite d m off [b]) a = if a = off then b else byteOf d m a := by
  rw [byteOf_overwrite]
  by_cases h : a = off
  · subst h; simp
  · have h1 : ¬ (off ≤ a ∧ a < off + [b].length) := by simp only [List.length_singleton]; omega
    rw [dif_neg h1, if_neg h]

theorem byteOf_nil (d : DeviceId) (a : Nat) : byteOf d [] a = initByte d a := rfl

/-! ### The canonical form -/

theorem mem_cellsOf {d : DeviceId} {off : Nat} {vs : List Byte} {c : Host.Cell} (h : c ∈ cellsOf d off vs) :
    off ≤ c.1 ∧ c.1 < off + vs.length ∧ c.2 ≠ initByte d c.1 := by
  induction vs generalizing off with
  | nil => simp [cellsOf] at h
  | cons b bs ih =>
    simp only [cellsOf] at h
    split at h
    · have := ih h
      simp only [List.length_cons]
      exact ⟨by omega, by omega, this.2.2⟩
    · rename_i hb
      rcases List.mem_cons.mp h with rfl | h
      · simp [hb]
      · have := ih h
        simp only [List.length_cons]
        exact ⟨by omega, by omega, this.2.2⟩

theorem mem_cellsOf_value {d : DeviceId} {off : Nat} {vs : List Byte} {c : Host.Cell} (h : c ∈ cellsOf d off vs) :
    c.2 ∈ vs := by
  induction vs generalizing off with
  | nil => simp [cellsOf] at h
  | cons b bs ih =>
    simp only [cellsOf] at h
    split at h
    · exact List.mem_cons_of_mem _ (ih h)
    · rcases List.mem_cons.mp h with rfl | h
      · simp
      · exact List.mem_cons_of_mem _ (ih h)

theorem pairwise_cellsOf (d : DeviceId) (off : Nat) (vs : List Byte) :
    (cellsOf d off vs).Pairwise (fun a b => a.1 < b.1) := by
  induction vs generalizing off with
  | nil => simp [cellsOf]
  | cons b bs ih =>
    simp only [cellsOf]
    split
    · exact ih _
    · refine List.pairwise_cons.mpr ⟨fun c hc => ?_, ih _⟩
      have := (mem_cellsOf hc).1
      simp only
      omega

/-- Every cell of an overwritten memory is an old one or holds one of the bytes written. -/
theorem mem_overwrite {d : DeviceId} {m : Memory} {off : Nat} {vs : List Byte} {c : Host.Cell}
    (h : c ∈ overwrite d m off vs) : c ∈ m ∨ c.2 ∈ vs := by
  simp only [overwrite, List.mem_append, List.mem_filter] at h
  rcases h with (h | h) | h
  · exact .inl h.1
  · exact .inr (mem_cellsOf_value h)
  · exact .inl h.1

/-- An overwrite inside the device keeps the canonical form. -/
theorem overwrite_wf {d : DeviceId} {m : Memory} {off : Nat} {vs : List Byte} (hm : m.wf d)
    (h : off + vs.length ≤ capacity d) : (overwrite d m off vs).wf d := by
  obtain ⟨hp, hc⟩ := hm
  refine ⟨?_, ?_⟩
  · simp only [overwrite]
    refine List.pairwise_append.mpr ⟨List.pairwise_append.mpr ⟨hp.filter _, pairwise_cellsOf d off vs, ?_⟩,
      hp.filter _, ?_⟩
    · intro a ha b hb
      have h1 := (List.mem_filter.mp ha).2
      have h2 := (mem_cellsOf hb).1
      simp only [decide_eq_true_eq] at h1
      omega
    · intro a ha b hb
      have h2 := (List.mem_filter.mp hb).2
      simp only [decide_eq_true_eq] at h2
      rcases List.mem_append.mp ha with ha | ha
      · have h1 := (List.mem_filter.mp ha).2
        simp only [decide_eq_true_eq] at h1
        omega
      · have h1 := (mem_cellsOf ha).2.1
        omega
  · intro c h'
    simp only [overwrite, List.mem_append, List.mem_filter] at h'
    rcases h' with (h' | h') | h'
    · exact hc c h'.1
    · have := mem_cellsOf h'
      exact ⟨by omega, this.2.2⟩
    · exact hc c h'.1

theorem cellsOf_wf {d : DeviceId} {off : Nat} {vs : List Byte} (h : off + vs.length ≤ capacity d) :
    (cellsOf d off vs).wf d :=
  ⟨pairwise_cellsOf d off vs, fun c hc => ⟨by have := mem_cellsOf hc; omega, (mem_cellsOf hc).2.2⟩⟩

theorem nil_wf (d : DeviceId) : Memory.wf d [] := by simp [Memory.wf]

theorem devReset_wf (d : DeviceId) : (devReset d).wf d := cellsOf_wf (by simp)

/-- After DevReset every byte of the device is 0 (R56). -/
theorem byteOf_devReset (d : DeviceId) (a : Nat) (h : a < capacity d) : byteOf d (devReset d) a = 0 := by
  have := lookup_cellsOf_getD d 0 (List.replicate (capacity d) 0) a (by omega) (by simpa using h)
  simpa [byteOf, devReset] using this

/-! ### The device operations (R52 to R55) -/

theorem devRead_eq (d : DeviceId) (m : Memory) (off : Nat) (h : off < capacity d) :
    devRead d m off = .ok (byteOf d m off) := by
  simp [devRead, Nat.not_le.mpr h]

theorem devReadRange_eq (d : DeviceId) (m : Memory) (off len : Nat) (h : off + len ≤ capacity d) :
    devReadRange d m off len = .ok ((List.range len).map (fun k => byteOf d m (off + k))) := by
  simp [devReadRange, Nat.not_lt.mpr h]

theorem devWrite_eq (d : DeviceId) (m : Memory) (off : Nat) (b : Byte) (h : off < capacity d) :
    devWrite d m off b = .ok (overwrite d m off [b]) := by
  simp [devWrite, Nat.not_le.mpr h]

theorem devWriteRange_eq (d : DeviceId) (m : Memory) (off : Nat) (vs : List Byte)
    (h : off + vs.length ≤ capacity d) : devWriteRange d m off vs = .ok (overwrite d m off vs) := by
  simp [devWriteRange, Nat.not_lt.mpr h]

/-- A device write that succeeds keeps the canonical form. -/
theorem devWrite_wf {d : DeviceId} {m m' : Memory} {off : Nat} {b : Byte} (hm : m.wf d)
    (h : devWrite d m off b = .ok m') : m'.wf d := by
  unfold devWrite at h
  split at h
  · cases h
  · cases h
    exact overwrite_wf hm (by simp only [List.length_singleton]; omega)

/-- A device range write that succeeds keeps the canonical form. -/
theorem devWriteRange_wf {d : DeviceId} {m m' : Memory} {off : Nat} {vs : List Byte} (hm : m.wf d)
    (h : devWriteRange d m off vs = .ok m') : m'.wf d := by
  unfold devWriteRange at h
  split at h
  · cases h
  · cases h
    exact overwrite_wf hm (by omega)

end Sys2Proof.Machine
end

