-- ==== Sys2Proof/Laws/State.lean ====
section
/-! SUPPORT. What each named update of State does to each field: one lemma per field per update, true by rfl. -/

namespace Sys2Proof.Machine

variable (s : State)

/-! ### setReg -/

@[simp] theorem State.setReg_v (x : Nibble) (b : Byte) : (s.setReg x b).v = s.v.set x.toNat b x.isLt := rfl
@[simp] theorem State.setReg_index (x : Nibble) (b : Byte) : (s.setReg x b).index = s.index := rfl
@[simp] theorem State.setReg_pc (x : Nibble) (b : Byte) : (s.setReg x b).pc = s.pc := rfl
@[simp] theorem State.setReg_stack (x : Nibble) (b : Byte) : (s.setReg x b).stack = s.stack := rfl
@[simp] theorem State.setReg_ticks (x : Nibble) (b : Byte) : (s.setReg x b).ticks = s.ticks := rfl
@[simp] theorem State.setReg_dt (x : Nibble) (b : Byte) : (s.setReg x b).dt = s.dt := rfl
@[simp] theorem State.setReg_lastOpcode (x : Nibble) (b : Byte) : (s.setReg x b).lastOpcode = s.lastOpcode := rfl
@[simp] theorem State.setReg_dirty (x : Nibble) (b : Byte) : (s.setReg x b).dirty = s.dirty := rfl
@[simp] theorem State.setReg_ram (x : Nibble) (b : Byte) : (s.setReg x b).ram = s.ram := rfl
@[simp] theorem State.setReg_fb (x : Nibble) (b : Byte) : (s.setReg x b).fb = s.fb := rfl
@[simp] theorem State.setReg_result (x : Nibble) (b : Byte) : (s.setReg x b).result = s.result := rfl
@[simp] theorem State.setReg_firstFault (x : Nibble) (b : Byte) : (s.setReg x b).firstFault = s.firstFault := rfl

/-! ### setIndex -/

@[simp] theorem State.setIndex_v (w : Word) : (s.setIndex w).v = s.v := rfl
@[simp] theorem State.setIndex_index (w : Word) : (s.setIndex w).index = w := rfl
@[simp] theorem State.setIndex_pc (w : Word) : (s.setIndex w).pc = s.pc := rfl
@[simp] theorem State.setIndex_stack (w : Word) : (s.setIndex w).stack = s.stack := rfl
@[simp] theorem State.setIndex_ticks (w : Word) : (s.setIndex w).ticks = s.ticks := rfl
@[simp] theorem State.setIndex_dt (w : Word) : (s.setIndex w).dt = s.dt := rfl
@[simp] theorem State.setIndex_lastOpcode (w : Word) : (s.setIndex w).lastOpcode = s.lastOpcode := rfl
@[simp] theorem State.setIndex_dirty (w : Word) : (s.setIndex w).dirty = s.dirty := rfl
@[simp] theorem State.setIndex_ram (w : Word) : (s.setIndex w).ram = s.ram := rfl
@[simp] theorem State.setIndex_fb (w : Word) : (s.setIndex w).fb = s.fb := rfl
@[simp] theorem State.setIndex_result (w : Word) : (s.setIndex w).result = s.result := rfl
@[simp] theorem State.setIndex_firstFault (w : Word) : (s.setIndex w).firstFault = s.firstFault := rfl
@[simp] theorem State.setIndex_reg (w : Word) (y : Nibble) : (s.setIndex w).reg y = s.reg y := rfl

/-! ### setPc -/

@[simp] theorem State.setPc_v (w : Word) : (s.setPc w).v = s.v := rfl
@[simp] theorem State.setPc_index (w : Word) : (s.setPc w).index = s.index := rfl
@[simp] theorem State.setPc_pc (w : Word) : (s.setPc w).pc = w := rfl
@[simp] theorem State.setPc_stack (w : Word) : (s.setPc w).stack = s.stack := rfl
@[simp] theorem State.setPc_ticks (w : Word) : (s.setPc w).ticks = s.ticks := rfl
@[simp] theorem State.setPc_dt (w : Word) : (s.setPc w).dt = s.dt := rfl
@[simp] theorem State.setPc_lastOpcode (w : Word) : (s.setPc w).lastOpcode = s.lastOpcode := rfl
@[simp] theorem State.setPc_dirty (w : Word) : (s.setPc w).dirty = s.dirty := rfl
@[simp] theorem State.setPc_ram (w : Word) : (s.setPc w).ram = s.ram := rfl
@[simp] theorem State.setPc_fb (w : Word) : (s.setPc w).fb = s.fb := rfl
@[simp] theorem State.setPc_result (w : Word) : (s.setPc w).result = s.result := rfl
@[simp] theorem State.setPc_firstFault (w : Word) : (s.setPc w).firstFault = s.firstFault := rfl
@[simp] theorem State.setPc_reg (w : Word) (y : Nibble) : (s.setPc w).reg y = s.reg y := rfl

/-! ### setStack -/

@[simp] theorem State.setStack_v (ws : List Word) : (s.setStack ws).v = s.v := rfl
@[simp] theorem State.setStack_index (ws : List Word) : (s.setStack ws).index = s.index := rfl
@[simp] theorem State.setStack_pc (ws : List Word) : (s.setStack ws).pc = s.pc := rfl
@[simp] theorem State.setStack_stack (ws : List Word) : (s.setStack ws).stack = ws := rfl
@[simp] theorem State.setStack_ticks (ws : List Word) : (s.setStack ws).ticks = s.ticks := rfl
@[simp] theorem State.setStack_dt (ws : List Word) : (s.setStack ws).dt = s.dt := rfl
@[simp] theorem State.setStack_lastOpcode (ws : List Word) : (s.setStack ws).lastOpcode = s.lastOpcode := rfl
@[simp] theorem State.setStack_dirty (ws : List Word) : (s.setStack ws).dirty = s.dirty := rfl
@[simp] theorem State.setStack_ram (ws : List Word) : (s.setStack ws).ram = s.ram := rfl
@[simp] theorem State.setStack_fb (ws : List Word) : (s.setStack ws).fb = s.fb := rfl
@[simp] theorem State.setStack_result (ws : List Word) : (s.setStack ws).result = s.result := rfl
@[simp] theorem State.setStack_firstFault (ws : List Word) : (s.setStack ws).firstFault = s.firstFault := rfl
@[simp] theorem State.setStack_reg (ws : List Word) (y : Nibble) : (s.setStack ws).reg y = s.reg y := rfl

/-! ### setDirty -/

@[simp] theorem State.setDirty_v (b : Bool) : (s.setDirty b).v = s.v := rfl
@[simp] theorem State.setDirty_index (b : Bool) : (s.setDirty b).index = s.index := rfl
@[simp] theorem State.setDirty_pc (b : Bool) : (s.setDirty b).pc = s.pc := rfl
@[simp] theorem State.setDirty_stack (b : Bool) : (s.setDirty b).stack = s.stack := rfl
@[simp] theorem State.setDirty_ticks (b : Bool) : (s.setDirty b).ticks = s.ticks := rfl
@[simp] theorem State.setDirty_dt (b : Bool) : (s.setDirty b).dt = s.dt := rfl
@[simp] theorem State.setDirty_lastOpcode (b : Bool) : (s.setDirty b).lastOpcode = s.lastOpcode := rfl
@[simp] theorem State.setDirty_dirty (b : Bool) : (s.setDirty b).dirty = b := rfl
@[simp] theorem State.setDirty_ram (b : Bool) : (s.setDirty b).ram = s.ram := rfl
@[simp] theorem State.setDirty_fb (b : Bool) : (s.setDirty b).fb = s.fb := rfl
@[simp] theorem State.setDirty_result (b : Bool) : (s.setDirty b).result = s.result := rfl
@[simp] theorem State.setDirty_firstFault (b : Bool) : (s.setDirty b).firstFault = s.firstFault := rfl
@[simp] theorem State.setDirty_reg (b : Bool) (y : Nibble) : (s.setDirty b).reg y = s.reg y := rfl

/-! ### setDt -/

@[simp] theorem State.setDt_v (b : Byte) : (s.setDt b).v = s.v := rfl
@[simp] theorem State.setDt_index (b : Byte) : (s.setDt b).index = s.index := rfl
@[simp] theorem State.setDt_pc (b : Byte) : (s.setDt b).pc = s.pc := rfl
@[simp] theorem State.setDt_stack (b : Byte) : (s.setDt b).stack = s.stack := rfl
@[simp] theorem State.setDt_ticks (b : Byte) : (s.setDt b).ticks = s.ticks := rfl
@[simp] theorem State.setDt_dt (b : Byte) : (s.setDt b).dt = b := rfl
@[simp] theorem State.setDt_lastOpcode (b : Byte) : (s.setDt b).lastOpcode = s.lastOpcode := rfl
@[simp] theorem State.setDt_dirty (b : Byte) : (s.setDt b).dirty = s.dirty := rfl
@[simp] theorem State.setDt_ram (b : Byte) : (s.setDt b).ram = s.ram := rfl
@[simp] theorem State.setDt_fb (b : Byte) : (s.setDt b).fb = s.fb := rfl
@[simp] theorem State.setDt_result (b : Byte) : (s.setDt b).result = s.result := rfl
@[simp] theorem State.setDt_firstFault (b : Byte) : (s.setDt b).firstFault = s.firstFault := rfl
@[simp] theorem State.setDt_reg (b : Byte) (y : Nibble) : (s.setDt b).reg y = s.reg y := rfl

/-! ### complete -/

@[simp] theorem State.complete_v : (s.complete).v = s.v := rfl
@[simp] theorem State.complete_index : (s.complete).index = s.index := rfl
@[simp] theorem State.complete_pc : (s.complete).pc = s.pc := rfl
@[simp] theorem State.complete_stack : (s.complete).stack = s.stack := rfl
@[simp] theorem State.complete_ticks : (s.complete).ticks = s.ticks + 1 := rfl
@[simp] theorem State.complete_dt : (s.complete).dt = s.dt := rfl
@[simp] theorem State.complete_lastOpcode : (s.complete).lastOpcode = s.lastOpcode := rfl
@[simp] theorem State.complete_dirty : (s.complete).dirty = s.dirty := rfl
@[simp] theorem State.complete_ram : (s.complete).ram = s.ram := rfl
@[simp] theorem State.complete_fb : (s.complete).fb = s.fb := rfl
@[simp] theorem State.complete_result : (s.complete).result = some .ok := rfl
@[simp] theorem State.complete_firstFault : (s.complete).firstFault = s.firstFault := rfl
@[simp] theorem State.complete_reg (y : Nibble) : (s.complete).reg y = s.reg y := rfl

/-! ### takeFault -/

@[simp] theorem State.takeFault_v (r : FaultRecord) : (s.takeFault r).v = s.v := rfl
@[simp] theorem State.takeFault_index (r : FaultRecord) : (s.takeFault r).index = s.index := rfl
@[simp] theorem State.takeFault_pc (r : FaultRecord) : (s.takeFault r).pc = s.pc := rfl
@[simp] theorem State.takeFault_stack (r : FaultRecord) : (s.takeFault r).stack = s.stack := rfl
@[simp] theorem State.takeFault_ticks (r : FaultRecord) : (s.takeFault r).ticks = s.ticks := rfl
@[simp] theorem State.takeFault_dt (r : FaultRecord) : (s.takeFault r).dt = s.dt := rfl
@[simp] theorem State.takeFault_lastOpcode (r : FaultRecord) : (s.takeFault r).lastOpcode = s.lastOpcode := rfl
@[simp] theorem State.takeFault_dirty (r : FaultRecord) : (s.takeFault r).dirty = s.dirty := rfl
@[simp] theorem State.takeFault_ram (r : FaultRecord) : (s.takeFault r).ram = s.ram := rfl
@[simp] theorem State.takeFault_fb (r : FaultRecord) : (s.takeFault r).fb = s.fb := rfl
@[simp] theorem State.takeFault_result (r : FaultRecord) : (s.takeFault r).result = some (.fault r) := rfl
@[simp] theorem State.takeFault_firstFault (r : FaultRecord) : (s.takeFault r).firstFault = some (s.firstFault.getD r) := rfl
@[simp] theorem State.takeFault_reg (r : FaultRecord) (y : Nibble) : (s.takeFault r).reg y = s.reg y := rfl

/-! ### fetched -/

@[simp] theorem State.fetched_v (w : Word) : (s.fetched w).v = s.v := rfl
@[simp] theorem State.fetched_index (w : Word) : (s.fetched w).index = s.index := rfl
@[simp] theorem State.fetched_pc (w : Word) : (s.fetched w).pc = s.pc + 2 := rfl
@[simp] theorem State.fetched_stack (w : Word) : (s.fetched w).stack = s.stack := rfl
@[simp] theorem State.fetched_ticks (w : Word) : (s.fetched w).ticks = s.ticks := rfl
@[simp] theorem State.fetched_dt (w : Word) : (s.fetched w).dt = s.dt := rfl
@[simp] theorem State.fetched_lastOpcode (w : Word) : (s.fetched w).lastOpcode = w := rfl
@[simp] theorem State.fetched_dirty (w : Word) : (s.fetched w).dirty = s.dirty := rfl
@[simp] theorem State.fetched_ram (w : Word) : (s.fetched w).ram = s.ram := rfl
@[simp] theorem State.fetched_fb (w : Word) : (s.fetched w).fb = s.fb := rfl
@[simp] theorem State.fetched_result (w : Word) : (s.fetched w).result = s.result := rfl
@[simp] theorem State.fetched_firstFault (w : Word) : (s.fetched w).firstFault = s.firstFault := rfl
@[simp] theorem State.fetched_reg (w : Word) (y : Nibble) : (s.fetched w).reg y = s.reg y := rfl

/-! ### setDevice -/

@[simp] theorem State.setDevice_v (d : DeviceId) (m : Memory) : (s.setDevice d m).v = s.v := by
  cases d <;> rfl
@[simp] theorem State.setDevice_index (d : DeviceId) (m : Memory) : (s.setDevice d m).index = s.index := by
  cases d <;> rfl
@[simp] theorem State.setDevice_pc (d : DeviceId) (m : Memory) : (s.setDevice d m).pc = s.pc := by
  cases d <;> rfl
@[simp] theorem State.setDevice_stack (d : DeviceId) (m : Memory) : (s.setDevice d m).stack = s.stack := by
  cases d <;> rfl
@[simp] theorem State.setDevice_ticks (d : DeviceId) (m : Memory) : (s.setDevice d m).ticks = s.ticks := by
  cases d <;> rfl
@[simp] theorem State.setDevice_dt (d : DeviceId) (m : Memory) : (s.setDevice d m).dt = s.dt := by
  cases d <;> rfl
@[simp] theorem State.setDevice_lastOpcode (d : DeviceId) (m : Memory) : (s.setDevice d m).lastOpcode = s.lastOpcode := by
  cases d <;> rfl
@[simp] theorem State.setDevice_dirty (d : DeviceId) (m : Memory) : (s.setDevice d m).dirty = s.dirty := by
  cases d <;> rfl
@[simp] theorem State.setDevice_result (d : DeviceId) (m : Memory) : (s.setDevice d m).result = s.result := by
  cases d <;> rfl
@[simp] theorem State.setDevice_firstFault (d : DeviceId) (m : Memory) : (s.setDevice d m).firstFault = s.firstFault := by
  cases d <;> rfl
@[simp] theorem State.setDevice_reg (d : DeviceId) (m : Memory) (y : Nibble) :
    (s.setDevice d m).reg y = s.reg y := by
  cases d <;> rfl
@[simp] theorem State.setDevice_ram_ram (m : Memory) : (s.setDevice .ram m).ram = m := rfl
@[simp] theorem State.setDevice_ram_fb (m : Memory) : (s.setDevice .ram m).fb = s.fb := rfl
@[simp] theorem State.setDevice_fb_ram (m : Memory) : (s.setDevice .fb m).ram = s.ram := rfl
@[simp] theorem State.setDevice_fb_fb (m : Memory) : (s.setDevice .fb m).fb = m := rfl
@[simp] theorem State.device_ram : s.device .ram = s.ram := rfl
@[simp] theorem State.device_fb : s.device .fb = s.fb := rfl
@[simp] theorem State.device_setDevice (d : DeviceId) (m : Memory) : (s.setDevice d m).device d = m := by
  cases d <;> rfl

/-! ### Reading a register after writing one -/

theorem State.reg_setReg (x y : Nibble) (b : Byte) :
    (s.setReg x b).reg y = if y = x then b else s.reg y := by
  simp only [State.reg, State.setReg, Vector.getElem_set]
  by_cases h : y = x
  · simp [h]
  · have : x.toNat ≠ y.toNat := fun e => h (BitVec.eq_of_toNat_eq e.symm)
    simp [h, this]

@[simp] theorem State.reg_setReg_same (x : Nibble) (b : Byte) : (s.setReg x b).reg x = b := by
  simp [State.reg_setReg]

theorem State.reg_setReg_of_ne {x y : Nibble} (h : y ≠ x) (b : Byte) : (s.setReg x b).reg y = s.reg y := by
  simp [State.reg_setReg, h]

/-- Two states with the same registers have the same register file. -/
theorem State.v_eq_of_reg_eq {s t : State} (h : ∀ x, s.reg x = t.reg x) : s.v = t.v := by
  apply Vector.ext
  intro i hi
  exact h (BitVec.ofNatLT i hi)

/-! ### Register values after reset -/

@[simp] theorem State.reset_reg (x : Nibble) : State.reset.reg x = 0 := by
  simp [State.reg, State.reset]

end Sys2Proof.Machine
end

