-- ==== Sys2Proof/Laws/Router.lean ====
section
/-! SUPPORT. What the router's operations and the core's memory primitives do under the fixed map (20_memory.md R61 to
R71): one lemma for each. -/

namespace Sys2Proof.Machine

/-- The map the reset sequence builds is the fixed map (70_reset_and_hazards.md R210 step 1, R61). -/
theorem buildMap_eq : buildMap = .ok fixedMap := by decide

/-- R61, R62: RAM below 0x1000, the framebuffer from 0xF800 to 0xFFFF, nothing else. -/
theorem regionOf_fixedMap (a : Nat) :
    regionOf fixedMap a =
      if a < 0x1000 then some ramRegion
      else if 0xF800 ≤ a ∧ a < 0x10000 then some fbRegion
      else none := by
  have hram : ramRegion.holdsUnit (unitIndex a) = decide (a < 0x1000) := by
    simp only [Region.holdsUnit, ramRegion, unitIndex, align, ramSize]
    congr 1
    exact propext (by omega)
  have hfb : fbRegion.holdsUnit (unitIndex a) = decide (0xF800 ≤ a ∧ a < 0x10000) := by
    simp only [Region.holdsUnit, fbRegion, unitIndex, align, fbBase, fbSize, fbWidth, fbHeight]
    congr 1
    exact propext (by omega)
  simp only [regionOf, regionOfUnit, fixedMap, List.find?, hram, hfb]
  by_cases h1 : a < 0x1000
  · simp [h1]
  · by_cases h2 : 0xF800 ≤ a ∧ a < 0x10000 <;> simp [h1, h2]

theorem regionOf_ram {a : Nat} (h : a < 0x1000) : regionOf fixedMap a = some ramRegion := by
  simp [regionOf_fixedMap, h]

theorem regionOf_fb {a : Nat} (h1 : 0xF800 ≤ a) (h2 : a < 0x10000) : regionOf fixedMap a = some fbRegion := by
  have : ¬ a < 0x1000 := by omega
  simp [regionOf_fixedMap, this, h1, h2]

theorem regionOf_unmapped {a : Nat} (h1 : 0x1000 ≤ a) (h2 : ¬ (0xF800 ≤ a ∧ a < 0x10000)) :
    regionOf fixedMap a = none := by
  have : ¬ a < 0x1000 := by omega
  simp only [regionOf_fixedMap, this, if_false, h2]

@[simp] theorem ramRegion_offset (a : Nat) : ramRegion.offset a = a := by simp [Region.offset, ramRegion]
@[simp] theorem fbRegion_offset (a : Nat) : fbRegion.offset a = a - 0xF800 := by
  simp [Region.offset, fbRegion, fbBase]
@[simp] theorem ramRegion_remaining (a : Nat) : ramRegion.remaining a = 0x1000 - a := by
  simp [Region.remaining, ramRegion, ramSize]
@[simp] theorem fbRegion_remaining (a : Nat) : fbRegion.remaining a = 0x800 - (a - 0xF800) := by
  simp [Region.remaining, fbRegion, fbBase, fbSize, fbWidth, fbHeight]
@[simp] theorem ramRegion_dev : ramRegion.mapping.dev = .ram := rfl
@[simp] theorem fbRegion_dev : fbRegion.mapping.dev = .fb := rfl
@[simp] theorem capacity_ram : capacity .ram = 0x1000 := rfl
@[simp] theorem capacity_fb : capacity .fb = 0x800 := rfl

variable (s : State)

/-! ### Any table: an access inside a region reaches the region's device (R63 to R65, R68, R69) -/

theorem routerRead_of_region {rt : RegionTable} {a : Nat} {r : Region} (h : regionOf rt a = some r)
    (ho : r.offset a < capacity r.mapping.dev) :
    routerRead rt s a = .ok (byteOf r.mapping.dev (s.device r.mapping.dev) (r.offset a)) := by
  simp only [routerRead, h, devRead_eq _ _ _ ho]

theorem routerWrite_of_region {rt : RegionTable} {a : Nat} {r : Region} (h : regionOf rt a = some r)
    (ho : r.offset a < capacity r.mapping.dev) (b : Byte) :
    routerWrite rt s a b =
      .ok (s.setDevice r.mapping.dev (overwrite r.mapping.dev (s.device r.mapping.dev) (r.offset a) [b])) := by
  simp only [routerWrite, h, devWrite_eq _ _ _ _ ho]

theorem routerReadRange_of_region {rt : RegionTable} {a n : Nat} {r : Region} (h : regionOf rt a = some r)
    (ho : r.offset a + min n (r.remaining a) ≤ capacity r.mapping.dev) :
    routerReadRange rt s a n =
      .ok ((List.range (min n (r.remaining a))).map
        (fun k => byteOf r.mapping.dev (s.device r.mapping.dev) (r.offset a + k))) := by
  simp only [routerReadRange, h, devReadRange_eq _ _ _ _ ho]

theorem routerWriteRange_of_region {rt : RegionTable} {a : Nat} {r : Region} {vs : List Byte}
    (h : regionOf rt a = some r) (hn : vs.length ≤ r.remaining a)
    (ho : r.offset a + vs.length ≤ capacity r.mapping.dev) :
    routerWriteRange rt s a vs =
      .ok (s.setDevice r.mapping.dev (overwrite r.mapping.dev (s.device r.mapping.dev) (r.offset a) vs)) := by
  simp only [routerWriteRange, h, Nat.min_eq_left hn, List.take_length, devWriteRange_eq _ _ _ _ ho]

/-! ### Single bytes (R64 to R67) -/

theorem memRead1_ram {a : Nat} (h : a < 0x1000) : memRead1 s a = .ok (byteOf .ram s.ram a) := by
  have := routerRead_of_region s (regionOf_ram h) (by simpa using h)
  rwa [ramRegion_offset] at this

theorem memRead1_fb {a : Nat} (h1 : 0xF800 ≤ a) (h2 : a < 0x10000) :
    memRead1 s a = .ok (byteOf .fb s.fb (a - 0xF800)) := by
  have := routerRead_of_region s (regionOf_fb h1 h2)
    (by rw [fbRegion_offset, fbRegion_dev, capacity_fb]; omega)
  rwa [fbRegion_offset] at this

theorem memRead1_unmapped {a : Nat} (h1 : 0x1000 ≤ a) (h2 : ¬ (0xF800 ≤ a ∧ a < 0x10000)) :
    memRead1 s a = .error (.addressInvalid a) := by
  simp only [memRead1, routerRead, regionOf_unmapped h1 h2]

theorem memWrite1_ram {a : Nat} (h : a < 0x1000) (b : Byte) :
    memWrite1 s a b = .ok (s.setDevice .ram (overwrite .ram s.ram a [b])) := by
  have := routerWrite_of_region s (regionOf_ram h) (by simpa using h) b
  rwa [ramRegion_offset] at this

theorem memWrite1_fb {a : Nat} (h1 : 0xF800 ≤ a) (h2 : a < 0x10000) (b : Byte) :
    memWrite1 s a b = .ok (s.setDevice .fb (overwrite .fb s.fb (a - 0xF800) [b])) := by
  have := routerWrite_of_region s (regionOf_fb h1 h2)
    (by rw [fbRegion_offset, fbRegion_dev, capacity_fb]; omega) b
  rwa [fbRegion_offset] at this

theorem memWrite1_unmapped {a : Nat} (h1 : 0x1000 ≤ a) (h2 : ¬ (0xF800 ≤ a ∧ a < 0x10000)) (b : Byte) :
    memWrite1 s a b = .error (.addressInvalid a) := by
  simp only [memWrite1, routerWrite, regionOf_unmapped h1 h2]

/-! ### Ranges (R68 to R71) -/

/-- Everything a range read can give inside one region: the bytes of its device, cut at the region's end. -/
theorem routerReadRange_ram {a : Nat} (h : a < 0x1000) (n : Nat) :
    routerReadRange fixedMap s a n =
      .ok ((List.range (min n (0x1000 - a))).map (fun k => byteOf .ram s.ram (a + k))) := by
  have := routerReadRange_of_region s (n := n) (regionOf_ram h)
    (by rw [ramRegion_offset, ramRegion_remaining, ramRegion_dev, capacity_ram]; omega)
  rwa [ramRegion_offset, ramRegion_remaining] at this

theorem routerReadRange_fb {a : Nat} (h1 : 0xF800 ≤ a) (h2 : a < 0x10000) (n : Nat) :
    routerReadRange fixedMap s a n =
      .ok ((List.range (min n (0x800 - (a - 0xF800)))).map (fun k => byteOf .fb s.fb (a - 0xF800 + k))) := by
  have := routerReadRange_of_region s (n := n) (regionOf_fb h1 h2)
    (by rw [fbRegion_offset, fbRegion_remaining, fbRegion_dev, capacity_fb]; omega)
  rwa [fbRegion_offset, fbRegion_remaining] at this

/-- MemRead from RAM (R70): the bytes, or ShortRead when they run past the end of RAM. -/
theorem memRead_ram {a : Nat} (h : a < 0x1000) (n : Nat) :
    memRead s a n =
      if a + n ≤ 0x1000 then .ok ((List.range n).map (fun k => byteOf .ram s.ram (a + k)))
      else .error (.shortRead a n (0x1000 - a)) := by
  simp only [memRead, routerReadRange_ram s h, List.length_map, List.length_range]
  by_cases hn : a + n ≤ 0x1000
  · have e : min n (0x1000 - a) = n := by omega
    simp [hn, e]
  · have e : min n (0x1000 - a) = 0x1000 - a := by omega
    have e2 : 0x1000 - a < n := by omega
    simp [hn, e, e2]

/-- MemRead from the framebuffer (R70). -/
theorem memRead_fb {a : Nat} (h1 : 0xF800 ≤ a) (h2 : a < 0x10000) (n : Nat) :
    memRead s a n =
      if a + n ≤ 0x10000 then .ok ((List.range n).map (fun k => byteOf .fb s.fb (a - 0xF800 + k)))
      else .error (.shortRead a n (0x10000 - a)) := by
  simp only [memRead, routerReadRange_fb s h1 h2, List.length_map, List.length_range]
  by_cases hn : a + n ≤ 0x10000
  · have e : min n (0x800 - (a - 0xF800)) = n := by omega
    simp [hn, e]
  · have e : min n (0x800 - (a - 0xF800)) = 0x10000 - a := by omega
    have e2 : 0x10000 - a < n := by omega
    simp [hn, e, e2]

/-- MemRead from an unmapped address, whatever the length (R70). -/
theorem memRead_unmapped {a : Nat} (h1 : 0x1000 ≤ a) (h2 : ¬ (0xF800 ≤ a ∧ a < 0x10000)) (n : Nat) :
    memRead s a n = .error (.addressInvalid a) := by
  simp only [memRead, routerReadRange, regionOf_unmapped h1 h2]

/-- The reads that succeed (R70): the bytes asked for lie in one region. -/
theorem memRead_ok_iff (a n : Nat) : (∃ bs, memRead s a n = .ok bs) ↔
    (a < 0x1000 ∧ a + n ≤ 0x1000) ∨ (0xF800 ≤ a ∧ a < 0x10000 ∧ a + n ≤ 0x10000) := by
  by_cases h1 : a < 0x1000
  · rw [memRead_ram s h1]
    by_cases h2 : a + n ≤ 0x1000
    · exact ⟨fun _ => .inl ⟨h1, h2⟩, fun _ => ⟨_, if_pos h2⟩⟩
    · rw [if_neg h2]
      exact ⟨fun ⟨_, h⟩ => (nomatch h), fun h => by omega⟩
  · by_cases h3 : 0xF800 ≤ a ∧ a < 0x10000
    · rw [memRead_fb s h3.1 h3.2]
      by_cases h2 : a + n ≤ 0x10000
      · exact ⟨fun _ => .inr ⟨h3.1, h3.2, h2⟩, fun _ => ⟨_, if_pos h2⟩⟩
      · rw [if_neg h2]
        exact ⟨fun ⟨_, h⟩ => (nomatch h), fun h => by omega⟩
    · rw [memRead_unmapped s (by omega) h3]
      exact ⟨fun ⟨_, h⟩ => (nomatch h), fun h => by omega⟩

/-- The reads that fail (R70): short at the end of a region, or at an unmapped address. -/
theorem memRead_error {a n : Nat} {f : FaultInfo} (h : memRead s a n = .error f) :
    f.kind = .shortRead ∧ (a < 0x1000 → 0x1000 < a + n) ∨ f.kind = .addressInvalid ∧ 0x1000 ≤ a := by
  by_cases h1 : a < 0x1000
  · rw [memRead_ram s h1] at h
    split at h
    · cases h
    · cases h
      exact .inl ⟨rfl, fun _ => by omega⟩
  · by_cases h3 : 0xF800 ≤ a ∧ a < 0x10000
    · rw [memRead_fb s h3.1 h3.2] at h
      split at h
      · cases h
      · cases h
        exact .inl ⟨rfl, fun h => by omega⟩
    · rw [memRead_unmapped s (by omega) h3] at h
      cases h
      exact .inr ⟨rfl, by omega⟩

/-- A read that succeeds gives as many bytes as were asked for (R70). -/
theorem memRead_length {a n : Nat} {bs : List Byte} (h : memRead s a n = .ok bs) (hn : bs.length ≤ n) :
    bs.length = n := by
  unfold memRead at h
  split at h
  · cases h
  · split at h
    · cases h
    · cases h
      omega

/-- MemWrite to the framebuffer (R71): all the bytes, when they fit. -/
theorem memWrite_fb {a : Nat} (h1 : 0xF800 ≤ a) (h2 : a < 0x10000) (vs : List Byte)
    (hn : a + vs.length ≤ 0x10000) :
    memWrite s a vs = .ok (s.setDevice .fb (overwrite .fb s.fb (a - 0xF800) vs)) := by
  have e1 : vs.length ≤ fbRegion.remaining a := by rw [fbRegion_remaining]; omega
  have := routerWriteRange_of_region s (regionOf_fb h1 h2) e1
    (by rw [fbRegion_offset, fbRegion_dev, capacity_fb]; omega)
  rw [fbRegion_offset] at this
  simp only [memWrite, regionOf_fb h1 h2, if_neg (Nat.not_lt.mpr e1)]
  exact this

/-! ### One byte, after a device changed -/

/-- What a byte reads as depends on the two devices only. -/
theorem memRead1_congr {s t : State} (h1 : t.ram = s.ram) (h2 : t.fb = s.fb) (a : Nat) :
    memRead1 t a = memRead1 s a := by
  have hd : ∀ d, t.device d = s.device d := fun d => by cases d <;> assumption
  simp only [memRead1, routerRead, hd]

/-- Every byte of the address space after an overwrite of RAM. -/
theorem memRead1_overwriteRam (off : Nat) (vs : List Byte) (h : off + vs.length ≤ 0x1000) (a : Nat) :
    memRead1 (s.setDevice .ram (overwrite .ram s.ram off vs)) a =
      if off ≤ a ∧ a < off + vs.length then .ok (vs.getD (a - off) 0) else memRead1 s a := by
  by_cases h1 : a < 0x1000
  · rw [memRead1_ram _ h1, memRead1_ram _ h1, State.setDevice_ram_ram, byteOf_overwrite]
    by_cases h2 : off ≤ a ∧ a < off + vs.length
    · rw [dif_pos h2, if_pos h2, List.getD_eq_getElem _ _ (by omega)]
    · rw [dif_neg h2, if_neg h2]
  · rw [if_neg (by omega)]
    by_cases h3 : 0xF800 ≤ a ∧ a < 0x10000
    · rw [memRead1_fb _ h3.1 h3.2, memRead1_fb _ h3.1 h3.2]
      rfl
    · rw [memRead1_unmapped _ (by omega) h3, memRead1_unmapped _ (by omega) h3]

/-- Every byte of the address space after an overwrite of the framebuffer. -/
theorem memRead1_overwriteFb (off : Nat) (vs : List Byte) (h : off + vs.length ≤ 0x800) (a : Nat) :
    memRead1 (s.setDevice .fb (overwrite .fb s.fb off vs)) a =
      if 0xF800 + off ≤ a ∧ a < 0xF800 + off + vs.length then .ok (vs.getD (a - (0xF800 + off)) 0)
      else memRead1 s a := by
  by_cases h1 : a < 0x1000
  · rw [memRead1_ram _ h1, memRead1_ram _ h1, if_neg (by omega)]
    rfl
  · by_cases h3 : 0xF800 ≤ a ∧ a < 0x10000
    · rw [memRead1_fb _ h3.1 h3.2, memRead1_fb _ h3.1 h3.2, State.setDevice_fb_fb, byteOf_overwrite]
      by_cases h2 : 0xF800 + off ≤ a ∧ a < 0xF800 + off + vs.length
      · rw [dif_pos (by omega), if_pos h2, List.getD_eq_getElem _ _ (by omega)]
        simp only [Nat.sub_sub]
      · rw [dif_neg (by omega), if_neg h2]
    · rw [memRead1_unmapped _ (by omega) h3, memRead1_unmapped _ (by omega) h3, if_neg (by omega)]

/-- A MemWrite1 that succeeds keeps both devices' canonical forms. -/
theorem memWrite1_wf {s t : State} {a : Nat} {b : Byte} (hr : s.ram.wf .ram) (hf : s.fb.wf .fb)
    (h : memWrite1 s a b = .ok t) : t.ram.wf .ram ∧ t.fb.wf .fb := by
  by_cases h1 : a < 0x1000
  · rw [memWrite1_ram s h1] at h
    cases h
    exact ⟨overwrite_wf hr (by simp only [List.length_singleton, capacity_ram]; omega), hf⟩
  · by_cases h2 : 0xF800 ≤ a ∧ a < 0x10000
    · rw [memWrite1_fb s h2.1 h2.2] at h
      cases h
      exact ⟨hr, overwrite_wf hf (by simp only [List.length_singleton, capacity_fb]; omega)⟩
    · rw [memWrite1_unmapped s (by omega) h2] at h
      cases h

end Sys2Proof.Machine
end

