-- ==== Sys2Proof/Laws/Draw.lean ====
section
/-! SUPPORT. What drawing does (41_display.md R131 to R134): it never faults under the fixed map, it changes only the
framebuffer and VF, every on-screen pixel becomes what R133 tabulates, and VF says whether one was hit. -/

namespace Sys2Proof.Machine

/-- What a (partial) draw with the 1 bits `cover` makes of a state. -/
structure Drawn (cover : Nat → Nat → Bool) (s t : State) : Prop where
  reg : ∀ x, x ≠ vf → t.reg x = s.reg x
  index : t.index = s.index
  pc : t.pc = s.pc
  stack : t.stack = s.stack
  ticks : t.ticks = s.ticks
  dt : t.dt = s.dt
  lastOpcode : t.lastOpcode = s.lastOpcode
  dirty : t.dirty = s.dirty
  ram : t.ram = s.ram
  result : t.result = s.result
  firstFault : t.firstFault = s.firstFault
  pixel : ∀ px py, onScreen px py = true → t.pixel px py = pixelAfter (cover px py) (s.pixel px py)
  hit : s.Collides cover → t.reg vf = 1
  miss : ¬ s.Collides cover → t.reg vf = s.reg vf
  wf : s.fb.wf .fb → t.fb.wf .fb
  binary : s.PixelsBinary → t.PixelsBinary

theorem onScreen_iff {px py : Nat} : onScreen px py = true ↔ px < 64 ∧ py < 32 := by
  rw [onScreen, decide_eq_true_iff]
  rfl

/-- A pixel's framebuffer offset determines it. -/
theorem pixelOffset_inj {px py qx qy : Nat} (h1 : onScreen px py = true) (h2 : onScreen qx qy = true) :
    py * fbWidth + px = qy * fbWidth + qx ↔ px = qx ∧ py = qy := by
  rw [onScreen_iff] at h1 h2
  simp only [fbWidth]
  omega

/-- The pixel's byte, read through the router (R132). -/
theorem memRead1_pixel (s : State) {px py : Nat} (h : onScreen px py = true) :
    memRead1 s (pixelAddr px py) = .ok (s.pixel px py) := by
  rw [onScreen_iff] at h
  have e : pixelAddr px py - 0xF800 = py * fbWidth + px := by simp only [pixelAddr, fbBase, fbWidth]; omega
  rw [memRead1_fb s (by simp only [pixelAddr, fbBase, fbWidth]; omega)
    (by simp only [pixelAddr, fbBase, fbWidth]; omega), e, State.pixel]

/-- The pixel's byte, written through the router (R132). -/
theorem memWrite1_pixel (s : State) {px py : Nat} (h : onScreen px py = true) (b : Byte) :
    memWrite1 s (pixelAddr px py) b =
      .ok (s.setDevice .fb (overwrite .fb s.fb (py * fbWidth + px) [b])) := by
  rw [onScreen_iff] at h
  have e : pixelAddr px py - 0xF800 = py * fbWidth + px := by simp only [pixelAddr, fbBase, fbWidth]; omega
  rw [memWrite1_fb s (by simp only [pixelAddr, fbBase, fbWidth]; omega)
    (by simp only [pixelAddr, fbBase, fbWidth]; omega), e]

/-- Pixels after one pixel was written. -/
theorem pixel_overwrite (s : State) {px py qx qy : Nat} (h1 : onScreen px py = true)
    (h2 : onScreen qx qy = true) (b : Byte) :
    (s.setDevice .fb (overwrite .fb s.fb (py * fbWidth + px) [b])).pixel qx qy =
      if qx = px ∧ qy = py then b else s.pixel qx qy := by
  have := pixelOffset_inj h2 h1
  simp only [State.pixel, State.setDevice_fb_fb, byteOf_overwrite_one, this]

theorem overwrite_pixel_wf (s : State) {px py : Nat} (h : onScreen px py = true) (b : Byte)
    (hw : s.fb.wf .fb) : Memory.wf .fb (overwrite .fb s.fb (py * fbWidth + px) [b]) := by
  rw [onScreen_iff] at h
  refine overwrite_wf hw ?_
  simp only [List.length_singleton, capacity_fb, fbWidth]
  omega

theorem overwrite_binary {m : Memory} {off : Nat} {b : Byte} (hb : b = 0 ∨ b = 1)
    (h : ∀ c ∈ m, c.2 = 0 ∨ c.2 = 1) : ∀ c ∈ overwrite .fb m off [b], c.2 = 0 ∨ c.2 = 1 := by
  intro c hc
  rcases mem_overwrite hc with hc | hc
  · exact h c hc
  · rw [List.mem_singleton] at hc
    rwa [hc]

/-- Nothing drawn. -/
theorem Drawn.nothing (s : State) : Drawn (fun _ _ => false) s s where
  reg := fun _ _ => rfl
  index := rfl
  pc := rfl
  stack := rfl
  ticks := rfl
  dt := rfl
  lastOpcode := rfl
  dirty := rfl
  ram := rfl
  result := rfl
  firstFault := rfl
  pixel := fun _ _ _ => rfl
  hit := by simp [State.Collides]
  miss := fun _ => rfl
  wf := id
  binary := id

/-- A draw depends on its 1 bits on screen only. -/
theorem Drawn.congr {c c' : Nat → Nat → Bool} {s t : State} (h : Drawn c s t)
    (e : ∀ px py, onScreen px py = true → c px py = c' px py) : Drawn c' s t := by
  have hc : s.Collides c ↔ s.Collides c' := by
    constructor <;> rintro ⟨px, py, h1, h2, h3⟩
    · exact ⟨px, py, h1, by rw [← e px py h1]; exact h2, h3⟩
    · exact ⟨px, py, h1, by rw [e px py h1]; exact h2, h3⟩
  exact { h with
    pixel := fun px py hp => by rw [← e px py hp]; exact h.pixel px py hp
    hit := fun hh => h.hit (hc.mpr hh)
    miss := fun hh => h.miss (fun h' => hh (hc.mp h')) }

/-- Two draws on disjoint pixels are one draw. -/
theorem Drawn.comp {c d : Nat → Nat → Bool} {s t u : State} (h1 : Drawn c s t) (h2 : Drawn d t u)
    (disj : ∀ px py, ¬ (c px py = true ∧ d px py = true)) :
    Drawn (fun px py => c px py || d px py) s u := by
  have same : ∀ px py, onScreen px py = true → d px py = true → t.pixel px py = s.pixel px py := by
    intro px py hp hd
    have hc : c px py = false := by
      rw [← Bool.not_eq_true]
      exact fun hc => disj px py ⟨hc, hd⟩
    rw [h1.pixel px py hp, hc]
    rfl
  have collides_d : t.Collides d ↔ s.Collides d := by
    constructor <;> rintro ⟨px, py, hp, hd, he⟩
    · exact ⟨px, py, hp, hd, by rw [← same px py hp hd]; exact he⟩
    · exact ⟨px, py, hp, hd, by rw [same px py hp hd]; exact he⟩
  exact {
    reg := fun x hx => (h2.reg x hx).trans (h1.reg x hx)
    index := h2.index.trans h1.index
    pc := h2.pc.trans h1.pc
    stack := h2.stack.trans h1.stack
    ticks := h2.ticks.trans h1.ticks
    dt := h2.dt.trans h1.dt
    lastOpcode := h2.lastOpcode.trans h1.lastOpcode
    dirty := h2.dirty.trans h1.dirty
    ram := h2.ram.trans h1.ram
    result := h2.result.trans h1.result
    firstFault := h2.firstFault.trans h1.firstFault
    pixel := fun px py hp => by
      by_cases hd : d px py = true
      · have hc : c px py = false := by
          rw [← Bool.not_eq_true]
          exact fun hc => disj px py ⟨hc, hd⟩
        rw [h2.pixel px py hp, same px py hp hd, hc, Bool.false_or]
      · rw [Bool.not_eq_true] at hd
        rw [h2.pixel px py hp, hd, Bool.or_false, h1.pixel px py hp]
        rfl
    hit := by
      rintro ⟨px, py, hp, hcd, he⟩
      by_cases hd : s.Collides d
      · exact h2.hit (collides_d.mpr hd)
      · rw [h2.miss (fun h => hd (collides_d.mp h))]
        refine h1.hit ⟨px, py, hp, ?_, he⟩
        rcases Bool.or_eq_true_iff.mp hcd with h | h
        · exact h
        · exact absurd ⟨px, py, hp, h, he⟩ hd
    miss := fun hn => by
      have hd : ¬ t.Collides d := fun h => by
        obtain ⟨px, py, hp, hd, he⟩ := collides_d.mp h
        exact hn ⟨px, py, hp, by simp [hd], he⟩
      have hc : ¬ s.Collides c := fun ⟨px, py, hp, hc, he⟩ => hn ⟨px, py, hp, by simp [hc], he⟩
      rw [h2.miss hd, h1.miss hc]
    wf := fun h => h2.wf (h1.wf h)
    binary := fun h => h2.binary (h1.binary h) }

/-- The state after a pixel was turned over. -/
theorem Drawn.pixelWritten (s : State) {px py : Nat} (hp : onScreen px py = true) :
    Drawn (fun qx qy => decide (qx = px ∧ qy = py)) s
      (if s.pixel px py = 1 then
        (s.setDevice .fb (overwrite .fb s.fb (py * fbWidth + px) [0])).setCollision
      else s.setDevice .fb (overwrite .fb s.fb (py * fbWidth + px) [1])) := by
  have hit_iff : s.Collides (fun qx qy => decide (qx = px ∧ qy = py)) ↔ s.pixel px py = 1 := by
    constructor
    · rintro ⟨qx, qy, _, hq, he⟩
      obtain ⟨rfl, rfl⟩ := of_decide_eq_true hq
      exact he
    · exact fun he => ⟨px, py, hp, by simp, he⟩
  by_cases h1 : s.pixel px py = 1
  · rw [if_pos h1]
    exact {
      reg := fun x hx => by
        rw [State.setCollision, State.reg_setReg_of_ne _ hx, State.setDevice_reg]
      index := rfl
      pc := rfl
      stack := rfl
      ticks := rfl
      dt := rfl
      lastOpcode := rfl
      dirty := rfl
      ram := rfl
      result := rfl
      firstFault := rfl
      pixel := fun qx qy hq => by
        refine (pixel_overwrite s hp hq 0).trans ?_
        by_cases e : qx = px ∧ qy = py
        · obtain ⟨rfl, rfl⟩ := e
          simp only [and_self, if_true, decide_true, pixelAfter, if_pos h1]
        · simp only [e, if_false, decide_false, pixelAfter]
      hit := fun _ => State.reg_setReg_same _ _ _
      miss := fun h => absurd (hit_iff.mpr h1) h
      wf := fun h => overwrite_pixel_wf s hp 0 h
      binary := fun h => overwrite_binary (.inl rfl) h }
  · rw [if_neg h1]
    exact {
      reg := fun x _ => State.setDevice_reg s _ _ x
      index := rfl
      pc := rfl
      stack := rfl
      ticks := rfl
      dt := rfl
      lastOpcode := rfl
      dirty := rfl
      ram := rfl
      result := rfl
      firstFault := rfl
      pixel := fun qx qy hq => by
        refine (pixel_overwrite s hp hq 1).trans ?_
        by_cases e : qx = px ∧ qy = py
        · obtain ⟨rfl, rfl⟩ := e
          simp only [and_self, if_true, decide_true, pixelAfter, if_neg h1]
        · simp only [e, if_false, decide_false, pixelAfter]
      hit := fun h => absurd (hit_iff.mp h) h1
      miss := fun _ => State.setDevice_reg s _ _ vf
      wf := fun h => overwrite_pixel_wf s hp 1 h
      binary := fun h => overwrite_binary (.inr rfl) h }

/-- One pixel of a draw completes and touches that pixel only. -/
theorem drawPixel_drawn (px py : Nat) (bit : Bool) (s : State) :
    ∃ t, drawPixel px py bit s = .claimedOk t ∧
      Drawn (fun qx qy => decide (qx = px ∧ qy = py) && bit) s t := by
  by_cases h : (onScreen px py && bit) = true
  · obtain ⟨hp, rfl⟩ := Bool.and_eq_true_iff.mp h
    refine ⟨_, ?_, (Drawn.pixelWritten s hp).congr (fun qx qy _ => by simp)⟩
    simp only [drawPixel, hp, Bool.and_true, if_true, memRead1_pixel s hp, memWrite1_pixel s hp]
    split <;> rfl
  · refine ⟨s, by simp only [drawPixel, h, if_false, Bool.false_eq_true], (Drawn.nothing s).congr ?_⟩
    intro qx qy hq
    by_cases e : qx = px ∧ qy = py
    · obtain ⟨rfl, rfl⟩ := e
      simp_all
    · simp [e]

/-- One row of a draw. -/
theorem drawBits_drawn (px py : Nat) (bits : List Bool) (s : State) :
    ∃ t, drawBits px py bits s = .claimedOk t ∧
      Drawn (fun qx qy => decide (px ≤ qx ∧ qy = py) && (bits[qx - px]?).getD false) s t := by
  induction bits generalizing px s with
  | nil => exact ⟨s, rfl, (Drawn.nothing s).congr (fun qx qy _ => by simp)⟩
  | cons b bs ih =>
    obtain ⟨t, ht, hd⟩ := drawPixel_drawn px py b s
    obtain ⟨u, hu, hd'⟩ := ih (px + 1) t
    refine ⟨u, by simp only [drawBits, ht, DispatchResult.andThen, hu], (hd.comp hd' ?_).congr ?_⟩
    · rintro qx qy ⟨h1, h2⟩
      simp only [Bool.and_eq_true, decide_eq_true_eq] at h1 h2
      omega
    · intro qx qy _
      rcases Nat.lt_trichotomy qx px with h | h | h
      · have e1 : qx ≠ px := by omega
        have e2 : ¬ px ≤ qx := by omega
        have e3 : ¬ px + 1 ≤ qx := by omega
        simp [e1, e2, e3]
      · subst h
        have e3 : ¬ qx + 1 ≤ qx := by omega
        simp [e3]
      · have e1 : qx ≠ px := by omega
        have e2 : px ≤ qx := by omega
        have e3 : px + 1 ≤ qx := by omega
        have e4 : qx - px = (qx - (px + 1)) + 1 := by omega
        simp [e1, e2, e3, e4]

/-- The bits of a row, by position. -/
theorem spriteRowBits_get (row : Byte) (k : Nat) :
    ((spriteRowBits row)[k]?).getD false = (decide (k < 8) && spriteRowBit row k) := by
  by_cases h : k < 8
  · simp [spriteRowBits, h]
  · simp [spriteRowBits, h]

/-- All rows of a sprite: the draw completes, and every on-screen pixel under a 1 bit of the sprite turns over. -/
theorem drawRows_drawn (px py : Nat) (rows : List Byte) (s : State) :
    ∃ t, drawRows px py rows s = .claimedOk t ∧ Drawn (spriteBit rows px py) s t := by
  induction rows generalizing py s with
  | nil => exact ⟨s, rfl, (Drawn.nothing s).congr (fun qx qy _ => by simp [spriteBit])⟩
  | cons row rows ih =>
    obtain ⟨t, ht, hd⟩ := drawBits_drawn px py (spriteRowBits row) s
    obtain ⟨u, hu, hd'⟩ := ih (py + 1) t
    refine ⟨u, by simp only [drawRows, ht, DispatchResult.andThen, hu], (hd.comp hd' ?_).congr ?_⟩
    · rintro qx qy ⟨h1, h2⟩
      simp only [spriteBit, Bool.and_eq_true, decide_eq_true_eq] at h1 h2
      omega
    · intro qx qy _
      simp only [spriteRowBits_get]
      rcases Nat.lt_trichotomy qy py with h | h | h
      · have e1 : qy ≠ py := by omega
        have e2 : ¬ py ≤ qy := by omega
        have e3 : ¬ py + 1 ≤ qy := by omega
        simp [spriteBit, e1, e2, e3]
      · subst h
        have e3 : ¬ qy + 1 ≤ qy := by omega
        by_cases e4 : px ≤ qx
        · have e5 : qx - px < 8 ↔ qx < px + 8 := by omega
          simp [spriteBit, e3, e4, e5]
        · simp [spriteBit, e3, e4]
      · have e1 : qy ≠ py := by omega
        have e2 : py ≤ qy := by omega
        have e3 : py + 1 ≤ qy := by omega
        have e4 : qy - py = (qy - (py + 1)) + 1 := by omega
        simp [spriteBit, e1, e2, e3, e4]

end Sys2Proof.Machine
end

