-- ==== Sys2Proof/Laws/Ops.lean ====
section
/-! SUPPORT. What the shared operations can do, each said once: the call stack (10_state.md R29, R30), the rules of the
six instructions (41_display.md, 42_flow.md, 43_loads.md), and the end of a tick (40_core_cycle.md R116 to R118). -/

namespace Sys2Proof.Machine

variable (s : State)

/-! ### The call stack -/

theorem State.push_full {s : State} (h : stackDepth ≤ s.stack.length) (w : Word) : s.push w = (s, false) := by
  simp [State.push, h]

theorem State.push_room {s : State} (h : s.stack.length < stackDepth) (w : Word) :
    s.push w = (s.setStack (s.stack ++ [w]), true) := by
  simp [State.push, Nat.not_le.mpr h]

theorem State.pop_empty {s : State} (h : s.stack = []) : s.pop = (0, false, s) := by
  simp [State.pop, h]

theorem State.pop_top {s : State} {ws : List Word} {w : Word} (h : s.stack = ws ++ [w]) :
    s.pop = (w, true, s.setStack ws) := by
  simp [State.pop, h]

/-- A stack is empty or has a top. -/
theorem stack_cases (ws : List Word) : ws = [] ∨ ∃ us u, ws = us ++ [u] := by
  rcases List.eq_nil_or_concat ws with h | ⟨us, u, h⟩
  · exact .inl h
  · exact .inr ⟨us, u, by simpa using h⟩

/-! ### The rules of the instructions -/

/-- The framebuffer after CLS (R130). -/
def clearedFb (m : Memory) : Memory := overwrite .fb m 0 (List.replicate fbSize 0)

/-- The write of CLS succeeds: the framebuffer's region is mapped and has room (R71, R61). -/
theorem memWrite_clear :
    memWrite s fbBase (List.replicate fbSize 0) = .ok (s.setDevice .fb (clearedFb s.fb)) := by
  have hb : fbBase = 0xF800 := rfl
  have hl : (List.replicate fbSize (0 : Byte)).length = 0x800 := by rw [List.length_replicate]; rfl
  have h := memWrite_fb s (a := fbBase) (Nat.le_of_eq hb.symm) (by rw [hb]; decide) (List.replicate fbSize 0)
    (by rw [hl, hb])
  have e : fbBase - 0xF800 = 0 := by rw [hb]
  rw [e] at h
  exact h

theorem clsRule_eq :
    clsRule s = .claimedOk ((s.setDevice .fb (clearedFb s.fb)).setDirty (s.dirty || clearSetsDirty)) := by
  unfold clsRule
  rw [memWrite_clear]
  rfl

/-- Every byte of the cleared framebuffer is 0. -/
theorem byteOf_clearedFb (m : Memory) {off : Nat} (h : off < 0x800) : byteOf .fb (clearedFb m) off = 0 := by
  have hl : off < fbSize := h
  simp [clearedFb, byteOf_overwrite, hl]

theorem clearedFb_wf {m : Memory} (h : m.wf .fb) : Memory.wf .fb (clearedFb m) :=
  overwrite_wf h (by rw [List.length_replicate]; exact (Nat.le_of_eq (Nat.zero_add _)))

theorem clearedFb_binary {m : Memory} (h : ∀ c ∈ m, c.2 = 0 ∨ c.2 = 1) :
    ∀ c ∈ clearedFb m, c.2 = 0 ∨ c.2 = 1 := by
  intro c hc
  rcases mem_overwrite hc with hc | hc
  · exact h c hc
  · exact .inl (List.eq_of_mem_replicate hc)

/-- RET takes the top of the stack, or underflows (R150). -/
theorem retRule_cases :
    (s.stack = [] ∧ retRule s = .claimedFailed .stackUnderflow s) ∨
    ∃ ws a, s.stack = ws ++ [a] ∧ retRule s = .claimedOk ((s.setStack ws).setPc a) := by
  rcases stack_cases s.stack with h | ⟨ws, a, h⟩
  · exact .inl ⟨h, by simp [retRule, State.pop_empty h]⟩
  · exact .inr ⟨ws, a, h, by simp [retRule, State.pop_top h]⟩

/-- CALL pushes PC and jumps, or overflows (R151). -/
theorem callRule_cases (nnn : Addr12) :
    (stackDepth ≤ s.stack.length ∧ callRule nnn s = .claimedFailed .stackOverflow s) ∨
    (s.stack.length < stackDepth ∧
      callRule nnn s = .claimedOk ((s.setStack (s.stack ++ [s.pc])).setPc (zext16 nnn))) := by
  rcases Nat.lt_or_ge s.stack.length stackDepth with h | h
  · exact .inr ⟨h, by simp [callRule, State.push_room h]⟩
  · exact .inl ⟨h, by simp [callRule, State.push_full h]⟩

/-- DRW draws the sprite it reads and sets dirty, or the sprite read faults and nothing is written (R131). -/
theorem drwRule_cases (x y n : Nibble) :
    (∃ f, memRead s s.index.toNat n.toNat = .error f ∧ drwRule x y n s = .claimedFailed f s) ∨
    ∃ sprite t, memRead s s.index.toNat n.toNat = .ok sprite ∧
      Drawn (spriteBit sprite (s.reg x).toNat (s.reg y).toNat) s.clearCollision t ∧
      drwRule x y n s = .claimedOk (t.setDirty true) := by
  cases h : memRead s s.index.toNat n.toNat with
  | error f => exact .inl ⟨f, rfl, by simp only [drwRule, h]⟩
  | ok sprite =>
    obtain ⟨t, ht, hd⟩ := drawRows_drawn (s.reg x).toNat (s.reg y).toNat sprite s.clearCollision
    exact .inr ⟨sprite, t, rfl, hd, by simp only [drwRule, h, ht, DispatchResult.andThen]⟩

/-- Execution is the rule of the instruction and then the end of the tick. -/
theorem exec_eq (i : Instr) : exec i s = .next (endTick s (ruleOf i s)) := by
  cases i <;> rfl

/-! ### The end of a tick -/

@[simp] theorem endTick_claimedOk (t : State) : endTick s (.claimedOk t) = t.complete := rfl
@[simp] theorem endTick_claimedFailed (f : FaultInfo) (t : State) :
    endTick s (.claimedFailed f t) = t.takeFault (s.executeRecord f) := rfl
@[simp] theorem endTick_declined :
    endTick s .declined = s.takeFault (s.executeRecord (.unknownInstruction s.lastOpcode)) := rfl

/-- Everything a claimed instruction's rule can answer: it fails with the state untouched, or it completes having
changed no RAM, no DT, no counter and no last opcode. No rule declines. -/
theorem ruleOf_cases (i : Instr) :
    (∃ f, ruleOf i s = .claimedFailed f s) ∨
    ∃ t, ruleOf i s = .claimedOk t ∧ t.ram = s.ram ∧ t.dt = s.dt ∧ t.ticks = s.ticks ∧
      t.lastOpcode = s.lastOpcode ∧ t.result = s.result ∧ t.firstFault = s.firstFault := by
  cases i with
  | cls => exact .inr ⟨_, clsRule_eq s, rfl, rfl, rfl, rfl, rfl, rfl⟩
  | ret =>
    rcases retRule_cases s with ⟨_, h⟩ | ⟨ws, a, _, h⟩
    · exact .inl ⟨_, h⟩
    · exact .inr ⟨_, h, rfl, rfl, rfl, rfl, rfl, rfl⟩
  | call nnn =>
    rcases callRule_cases s nnn with ⟨_, h⟩ | ⟨_, h⟩
    · exact .inl ⟨_, h⟩
    · exact .inr ⟨_, h, rfl, rfl, rfl, rfl, rfl, rfl⟩
  | ldVx x kk => exact .inr ⟨_, rfl, rfl, rfl, rfl, rfl, rfl, rfl⟩
  | ldI nnn => exact .inr ⟨_, rfl, rfl, rfl, rfl, rfl, rfl, rfl⟩
  | drw x y n =>
    rcases drwRule_cases s x y n with ⟨f, _, h⟩ | ⟨sprite, t, _, hd, h⟩
    · exact .inl ⟨f, h⟩
    · exact .inr ⟨_, h, hd.ram, hd.dt, hd.ticks, hd.lastOpcode, hd.result, hd.firstFault⟩

end Sys2Proof.Machine
end

