-- ==== Sys2Proof/Laws/PerInstr.lean ====
section
/-! SUPPORT. Statements made for each instruction. Family `Claimed` (30_encoding.md R92, R93): an instruction's word is
claimed by the instruction's own dispatch entry. -/

namespace Sys2Proof.Laws

/-- A word's class digits, cut out by the mask 0xF000. -/
theorem class_masked (c : Nibble) (x : Addr12) : ((c ++ x : Word) &&& 0xF000) = c ++ (0 : Addr12) := by
  apply BitVec.eq_of_getLsbD_eq
  intro i hi
  simp only [BitVec.getLsbD_and, BitVec.getLsbD_append]
  interval_cases i <;> simp

/-- The word of the instruction is claimed by the instruction's entry. -/
def Claimed.Statement (i : Instr) : Prop := i.entry.claims (encode i) = true

theorem Claimed.cls : Claimed.Statement .cls := by
  simp only [Claimed.Statement]
  decide

theorem Claimed.ret : Claimed.Statement .ret := by
  simp only [Claimed.Statement]
  decide

theorem Claimed.call (nnn : Addr12) : Claimed.Statement (.call nnn) := by
  simp only [Claimed.Statement, Instr.entry, Entry.claims, Entry.mask, Entry.pattern, encode, class_masked]
  decide

theorem Claimed.ldVx (x : Nibble) (kk : Byte) : Claimed.Statement (.ldVx x kk) := by
  have h := class_masked 6 (x ++ kk : Addr12)
  exact beq_of_eq h

theorem Claimed.ldI (nnn : Addr12) : Claimed.Statement (.ldI nnn) := by
  simp only [Claimed.Statement, Instr.entry, Entry.claims, Entry.mask, Entry.pattern, encode, class_masked]
  decide

theorem Claimed.drw (x y n : Nibble) : Claimed.Statement (.drw x y n) := by
  have h := class_masked 0xD (x ++ (y ++ n : Byte) : Addr12)
  exact beq_of_eq h

end Sys2Proof.Laws
end

