-- ==== Sys2Proof/Laws/Step.lean ====
section
/-! SUPPORT. What the fetch gives (40_core_cycle.md R112) and what a step can do (R111), each said once. -/

namespace Sys2Proof.Machine

variable (s : State)

/-! ### The fetch -/

theorem range_two : List.range 2 = [0, 1] := rfl

/-- Two bytes read at PC make the word. -/
theorem fetchWord_of_memRead {b0 b1 : Byte} (h : memRead s s.pc.toNat 2 = .ok [b0, b1]) :
    fetchWord s = .ok (wordOfBytes b0 b1) := by
  simp only [fetchWord, h]

theorem fetchWord_ram (h : s.pc.toNat + 2 ≤ 0x1000) :
    fetchWord s = .ok (wordOfBytes (byteOf .ram s.ram s.pc.toNat) (byteOf .ram s.ram (s.pc.toNat + 1))) := by
  have hm := memRead_ram s (show s.pc.toNat < 0x1000 by omega) 2
  rw [if_pos h, range_two] at hm
  exact fetchWord_of_memRead s hm

/-- The list of a two-byte read, written out. -/
theorem memRead_two {d : DeviceId} {m : Memory} {a k : Nat}
    (h : memRead s a 2 = .ok ((List.range 2).map (fun x => byteOf d m (k + x)))) :
    memRead s a 2 = .ok [byteOf d m k, byteOf d m (k + 1)] := h

theorem fetchWord_fb (h1 : 0xF800 ≤ s.pc.toNat) (h2 : s.pc.toNat + 2 ≤ 0x10000) :
    fetchWord s = .ok (wordOfBytes (byteOf .fb s.fb (s.pc.toNat - 0xF800))
      (byteOf .fb s.fb (s.pc.toNat - 0xF800 + 1))) :=
  fetchWord_of_memRead s (memRead_two s ((memRead_fb s h1 (by omega) 2).trans (if_pos h2)))

theorem fetchWord_unmapped (h1 : 0x1000 ≤ s.pc.toNat) (h2 : s.pc.toNat < 0xF800) :
    fetchWord s = .error (.addressInvalid s.pc.toNat) := by
  simp only [fetchWord, memRead_unmapped s h1 (by omega : ¬ (0xF800 ≤ s.pc.toNat ∧ s.pc.toNat < 0x10000))]

theorem fetchWord_ram_end (h : s.pc.toNat = 0xFFF) : fetchWord s = .error (.shortRead 0xFFF 2 1) := by
  rw [fetchWord, h, memRead_ram s (by omega), if_neg (by omega)]

theorem fetchWord_fb_end (h : s.pc.toNat = 0xFFFF) : fetchWord s = .error (.shortRead 0xFFFF 2 1) := by
  rw [fetchWord, h, memRead_fb s (by omega) (by omega), if_neg (by omega)]

/-- The word fetched depends on PC and the two devices only. -/
theorem fetchWord_congr {s t : State} (hp : t.pc = s.pc) (hr : t.ram = s.ram) (hf : t.fb = s.fb) :
    fetchWord t = fetchWord s := by
  have hd : ∀ d, t.device d = s.device d := fun d => by cases d <;> assumption
  simp only [fetchWord, memRead, routerReadRange, hp, hd]

/-! ### The step -/

/-- Everything a step can do: the fetch faults, the word is unknown, or the decoded instruction executes. -/
theorem step_cases :
    (∃ f, fetchWord s = .error f ∧ step s = .next (s.fetchFault f)) ∨
    (∃ w e, fetchWord s = .ok w ∧ decodeWord w = .error e ∧ step s = .next (s.fetched w).unknown) ∨
    ∃ w i, fetchWord s = .ok w ∧ decodeWord w = .ok i ∧
      step s = .next (endTick (s.fetched w) (ruleOf i (s.fetched w))) := by
  cases hf : fetchWord s with
  | error f => exact .inl ⟨f, rfl, by simp only [step, hf]⟩
  | ok w =>
    cases hd : decodeWord w with
    | error e => exact .inr (.inl ⟨w, e, rfl, hd, by simp only [step, hf, hd]⟩)
    | ok i => exact .inr (.inr ⟨w, i, rfl, hd, by simp only [step, hf, hd, exec_eq]⟩)

end Sys2Proof.Machine
end

