-- ==== Sys2Proof/Tests/Slice0.lean ====
section
/-! SUPPORT. Tests on fixed values, each from the worked examples and vectors of 95_test_vectors.md or worked out by
hand from the rule named; and for every statement with hypotheses a witness that meets them. -/

namespace Sys2Proof.Tests

open Sys2Proof.Machine

-- One test at a time: many kernel evaluations waiting on each other would each hold a thread's stack.
set_option Elab.async false

/-! ### Decoding: words written out from the table of 30_encoding.md R92 -/

theorem test_decode_cls : decodeWord 0b0000_0000_1110_0000 = .ok .cls := by decide
theorem test_decode_ret : decodeWord 0b0000_0000_1110_1110 = .ok .ret := by decide
theorem test_decode_call : decodeWord 0b0010_1010_1011_1100 = .ok (.call 0xABC) := by decide
theorem test_decode_ldVx : decodeWord 0b0110_1110_1000_0001 = .ok (.ldVx 0xE 0x81) := by decide
theorem test_decode_ldI : decodeWord 0b1010_0000_0001_0100 = .ok (.ldI 0x014) := by decide
theorem test_decode_drw : decodeWord 0b1101_1111_0000_0101 = .ok (.drw 0xF 0x0 0x5) := by decide

/-- UNK-1 to UNK-10. -/
theorem test_decode_illegal :
    ([0x0000, 0x00E1, 0x00EF, 0x01E0, 0x1234, 0x7001, 0x8124, 0xF00A, 0xFFFF, 0xE09E] : List Word).all
      (fun w => decodeWord w == .error (.unknownInstruction w)) = true := by decide +kernel

theorem test_decode_bytes : decode [0x61, 0x2A, 0x60] = .ok (.ldVx 1 0x2A, [0x60]) := by decide
theorem test_decode_short : decode [0x61] = .error (.tooFewBytes 1) := by decide

/-! ### Well-formedness: one ill-formed term for each check (30_encoding.md R100) -/

theorem test_illformed_call : (AsmLine.call 0x1000).wellFormed = false := by decide
theorem test_illformed_ldVx_register : (AsmLine.ldVx 16 0).wellFormed = false := by decide
theorem test_illformed_ldVx_byte : (AsmLine.ldVx 0 0x100).wellFormed = false := by decide
theorem test_illformed_ldI : (AsmLine.ldI 0x1000).wellFormed = false := by decide
theorem test_illformed_drw_x : (AsmLine.drw 16 0 0).wellFormed = false := by decide
theorem test_illformed_drw_y : (AsmLine.drw 0 16 0).wellFormed = false := by decide
theorem test_illformed_drw_n : (AsmLine.drw 0 0 16).wellFormed = false := by decide
theorem test_illformed_dw : (AsmLine.dw 0x10000).wellFormed = false := by decide
theorem test_wellformed_bounds :
    (AsmLine.call 0xFFF).wellFormed ∧ (AsmLine.ldVx 15 0xFF).wellFormed ∧ (AsmLine.ldI 0xFFF).wellFormed ∧
    (AsmLine.drw 15 15 15).wellFormed ∧ (AsmLine.dw 0xFFFF).wellFormed := by decide

/-! ### The parameter set and an ill-formed one for each constraint of 00_scope.md R6 -/

theorem test_params_wellformed : params.WellFormed := by decide
theorem test_params_align : ¬ { params with align := 0 }.WellFormed := by decide
theorem test_params_ramSize_unit : ¬ { params with ramSize := 0x1080 }.WellFormed := by decide
theorem test_params_fbSize : ¬ { params with fbSize := 0x900 }.WellFormed := by decide
theorem test_params_fbWidth : ¬ { params with fbWidth := 0, fbSize := 0 }.WellFormed := by decide
theorem test_params_fbHeight : ¬ { params with fbHeight := 0, fbSize := 0 }.WellFormed := by decide
theorem test_params_fbSize_unit : ¬ { params with fbHeight := 33, fbSize := 0x840 }.WellFormed := by decide
theorem test_params_fbBase_unit : ¬ { params with fbBase := 0xF780 }.WellFormed := by decide
theorem test_params_ramBase : ¬ { params with ramBase := 0x100 }.WellFormed := by decide
theorem test_params_ramSize_small : ¬ { params with ramSize := 0xF00 }.WellFormed := by decide
theorem test_params_overlap : ¬ { params with fbBase := 0xF00 }.WellFormed := by decide
theorem test_params_past_end : ¬ { params with fbBase := 0xF900 }.WellFormed := by decide
theorem test_params_font : ¬ { params with font := [0xF0] }.WellFormed := by decide

/-! ### Assembler lines of 95_test_vectors.md P1, P2, P5 (R100) -/

theorem test_asm_cls : assembleText ['C', 'L', 'S'] = some 0x00E0 := by decide
theorem test_asm_ret : assembleText ['R', 'E', 'T'] = some 0x00EE := by decide
theorem test_asm_call : assembleText ['C', 'A', 'L', 'L', ' ', '0', 'x', '2', '0', '8'] = some 0x2208 := by decide
theorem test_asm_ldVx :
    assembleText ['L', 'D', ' ', 'V', '0', ',', ' ', '6', '2'] = some 0x603E := by decide
theorem test_asm_ldI :
    assembleText ['L', 'D', ' ', 'I', ',', ' ', '0', 'x', '0', '1', '4'] = some 0xA014 := by decide
theorem test_asm_drw :
    assembleText ['D', 'R', 'W', ' ', 'V', '0', ',', ' ', 'V', '1', ',', ' ', '5'] = some 0xD015 := by decide
theorem test_asm_dw : assembleText ['D', 'W', ' ', '0', 'x', 'C', '3', '8', '1'] = some 0xC381 := by decide
theorem test_asm_refused :
    assembleText ['D', 'R', 'W', ' ', 'V', '0', ',', 'V', '1', ',', '1', '6'] = none := by decide

/-! ### States for single steps -/

/-- RAM after reset but for `bytes` at `a`. -/
def ramWith (a : Nat) (bytes : List Byte) : Memory := overwrite .ram [] a bytes

/-- The reset state with the word stored at 0x200, where PC is. -/
def at200 (w : Word) : State := { State.reset with ram := ramWith 0x200 (bytesOfWord w) }

/-- The same with PC moved and the word stored there. -/
def atPc (pc : Word) (w : Word) : State := { State.reset with pc := pc, ram := ramWith pc.toNat (bytesOfWord w) }

/-- A state that draws: the word at 0x200, V[0] and V[1], I = 0x300 with sprite bytes there, lit pixels by
framebuffer offset. -/
def drawing (w : Word) (v0 v1 : Byte) (sprite : List Byte) (lit : List Nat) : State :=
  { State.reset with
    index := 0x300
    v := (State.reset.v.set 0 v0).set 1 v1
    ram := overwrite .ram (ramWith 0x200 (bytesOfWord w)) 0x300 sprite
    fb := lit.map (fun o => (o, 1)) }

/-- A call stack of `k` entries. -/
def stackOf (k : Nat) : List Word := List.replicate k 0x0202

/-- The listed framebuffer bytes: the lit pixels' offsets. -/
def litPixels (s : State) : List Nat := s.fb.map (fun c => c.1)

/-! ### Single steps -/

/-- CLS-3: both corners lit, VF = 1. -/
theorem test_cls :
    let s := { at200 0x00E0 with fb := [(0, 1), (0x7FF, 1)], v := State.reset.v.set 15 1, index := 0x300 }
    s.tick.fb = [] ∧ s.tick.reg 0xF = 1 ∧ s.tick.index = 0x300 ∧ s.tick.pc = 0x202 ∧ s.tick.result = some .ok := by
  decide +kernel
/-- CLS-2: dirty stays 1. -/
theorem test_cls_dirty : ({ at200 0x00E0 with dirty := true }).tick.dirty = true := by decide +kernel

/-- RET-2. -/
theorem test_ret :
    let s := { atPc 0x300 0x00EE with stack := [0x0202, 0x0456] }
    s.tick.stack = [0x0202] ∧ s.tick.pc = 0x0456 ∧ s.tick.ticks = 1 := by decide +kernel
/-- RET-1. -/
theorem test_ret_empty :
    (at200 0x00EE).tick.result = some (.fault ⟨5, .stackUnderflow, 0, 0, 0, 0x00EE, true, 0x200⟩) ∧
    (at200 0x00EE).tick.pc = 0x202 ∧ (at200 0x00EE).tick.ticks = 0 := by decide +kernel

/-- CALL-1. -/
theorem test_call :
    (at200 0x2ABC).tick.stack = [0x0202] ∧ (at200 0x2ABC).tick.pc = 0x0ABC ∧ (at200 0x2ABC).tick.ticks = 1 := by
  decide +kernel
/-- CALL-3. -/
theorem test_call_full :
    let s := { at200 0x2300 with stack := stackOf 16 }
    s.tick.result = some (.fault ⟨4, .stackOverflow, 0, 0, 0, 0x2300, true, 0x200⟩) ∧
    s.tick.stack = stackOf 16 ∧ s.tick.pc = 0x202 := by decide +kernel

/-- LDV-4 (VF is writable). -/
theorem test_ldVx_vf : (at200 0x6F01).tick.reg 0xF = 0x01 ∧ (at200 0x6F01).tick.pc = 0x202 := by decide +kernel
/-- LDV-5. -/
theorem test_ldVx_one_register :
    let s := { at200 0x6E80 with v := State.reset.v.set 14 0x7F }
    s.tick.reg 0xE = 0x80 ∧ s.tick.reg 0xD = 0 ∧ s.tick.reg 0xF = 0 := by decide +kernel

/-- LDI-3. -/
theorem test_ldI : (at200 0xAFFF).tick.index = 0x0FFF ∧ (at200 0xAFFF).tick.pc = 0x202 := by decide +kernel
/-- LDI-4: no memory is read. -/
theorem test_ldI_immediate : (at200 0xA201).tick.index = 0x0201 := by decide +kernel

/-- DRW-20: clipped at the corner, one collision. -/
theorem test_drw_corner :
    let t := (drawing 0xD015 60 28 [0xFF, 0xFF, 0xFF, 0xFF, 0xFF] [0x7FF]).tick
    litPixels t = [0x73C, 0x73D, 0x73E, 0x73F, 0x77C, 0x77D, 0x77E, 0x77F, 0x7BC, 0x7BD, 0x7BE, 0x7BF,
      0x7FC, 0x7FD, 0x7FE] ∧ t.reg 0xF = 1 ∧ t.dirty = true := by decide +kernel
/-- DRW-16: the sprite runs past the end of RAM. -/
theorem test_drw_short :
    let s := { at200 0xD013 with index := 0x0FFE }
    s.tick.result = some (.fault ⟨7, .shortRead, 0x0FFE, 3, 2, 0xD013, true, 0x200⟩) ∧
    s.tick.dirty = false ∧ s.tick.pc = 0x202 := by decide +kernel

/-- FETCH-1: big-endian. -/
theorem test_fetch_order : (at200 0x612A).tick.reg 1 = 0x2A ∧ (at200 0x612A).tick.lastOpcode = 0x612A := by
  decide +kernel
/-- FETCH-3. -/
theorem test_fetch_short :
    ({ State.reset with pc := 0x0FFF }).tick.result =
      some (.fault ⟨7, .shortRead, 0x0FFF, 2, 1, 0, false, 0x0FFF⟩) := by decide +kernel
/-- UNK-5. -/
theorem test_unknown :
    (at200 0x1234).tick.result = some (.fault ⟨6, .unknownInstruction, 0, 0, 0, 0x1234, true, 0x200⟩) ∧
    (at200 0x1234).tick.pc = 0x202 := by decide +kernel
/-- The host's placing of a word is what the next step runs (LDV-1). -/
theorem test_withFetchWord : (State.reset.withFetchWord 16 0x6004).tick.reg 0 = 0x04 := by decide +kernel

/-! ### Host actions (95_test_vectors.md HOST-1 to HOST-8) -/

theorem test_load : ((HostAction.load 0x200 [0x00, 0xE0]).apply State.reset).1.ram = [(0x201, 0xE0)] := by decide +kernel
theorem test_load_refused : ((HostAction.load 0x1FF [0x12]).apply State.reset).2 = .loadRefused := by decide +kernel
theorem test_load_late :
    ((HostAction.load 0x300 [1]).apply (at200 0x6004).tick).2 = .loadRefused := by decide +kernel
theorem test_timer :
    (HostAction.timerEvent.apply { State.reset with dt := 5 }).1.dt = 4 ∧
    (HostAction.timerEvent.apply State.reset).1.dt = 0 := by decide +kernel
theorem test_ackDirty : (HostAction.ackDirty.apply { State.reset with dirty := true }).1.dirty = false := by decide

/-! ### Devices and router (MEM-1 to MEM-17, E2) -/

theorem test_mem_short : memRead State.reset 0x0FFE 4 = .error (.shortRead 0x0FFE 4 2) := by decide +kernel
theorem test_mem_unmapped_empty : memRead State.reset 0x1000 0 = .error (.addressInvalid 0x1000) := by decide +kernel
theorem test_mem_write_short :
    memWrite State.reset 0x0FFE [1, 2, 3] = .error (.shortRead 0x0FFE 3 2) := by decide +kernel
theorem test_router_write_cut :
    (routerWriteRange fixedMap State.reset 0x0FFE [1, 2, 3]).map (fun t => t.ram) =
      .ok [(0xFFE, 1), (0xFFF, 2)] := by decide +kernel
theorem test_register_misaligned :
    registerRegion fixedMap 0x10FF 0 .ram 0 = .error (.invalidRegionAlignment 0x10FF) := by decide +kernel
theorem test_register_mapped : registerRegion fixedMap 0xF800 0x100 .fb 0 = .error .alreadyMapped := by decide +kernel
theorem test_device_range : devReadRange .ram [] 0x0FFF 2 = .error .outOfRange := by decide +kernel

/-! ### Witnesses: values that meet the hypotheses of a statement, for each of its clauses -/

/-- The invariant as a check that evaluates. -/
def invCheck (s : State) : Bool :=
  decide s.MemoryWf && s.fb.all (fun c => c.2 == 0 || c.2 == 1) && decide s.StackBounded &&
    decide (s.pc.toNat ≤ ramSize) && s.stack.all (fun a => decide (a.toNat ≤ ramSize)) &&
    decide (s.index.toNat < ramSize)

theorem inv_of_check {s : State} (h : invCheck s = true) : s.Inv := by
  simp only [invCheck, Bool.and_eq_true, decide_eq_true_eq, List.all_eq_true, Bool.or_eq_true, beq_iff_eq] at h
  obtain ⟨⟨⟨⟨⟨h1, h2⟩, h3⟩, h4⟩, h5⟩, h6⟩ := h
  exact ⟨h1, h2, h3, h4, h5, h6⟩

/-- A state of a run that draws with X and Y not VF: DRW-13. -/
def drawn13 : State := drawing 0xD011 0 0 [0xC0] [0]

/-- The step answers a next state. -/
def answersNext (s : State) : Bool :=
  match step s with
  | .next _ => true
  | _ => false

/-- The state of `State.tick` is the one the step answers, so the tests on it are tests of `step`. -/
theorem step_of_answersNext {s : State} (h : answersNext s = true) : step s = .next s.tick := by
  simp only [answersNext] at h
  simp only [State.tick, HostAction.apply]
  cases hs : step s with
  | next t => rfl
  | fault f => rw [hs] at h; cases h
  | refused r => rw [hs] at h; cases h

theorem test_witness_EncodeOfDecodeIsIdentity : decodeWord 0xDFFF = .ok (.drw 0xF 0xF 0xF) := by decide
theorem test_witness_AtMostOneEntryClaimsAWord :
    Entry.drw.claims 0xD015 = true ∧ ([.drw, .ldI, .ldVx, .call, .ret, .cls] : List Entry).Perm dispatchTable := by
  decide
theorem test_witness_IllegalWordsAreExactlyTheUnclaimed :
    decodeWord 0x00E1 = .error (.unknownInstruction 0x00E1) ∧
    decodeWord 0x1000 = .error (.unknownInstruction 0x1000) ∧ decodeWord 0x00EE = .ok .ret := by decide
theorem test_witness_OperandsAreFieldsOfTheWord :
    decodeWord 0x2FFF = .ok (.call 0xFFF) ∧ decodeWord 0x6FFF = .ok (.ldVx 0xF 0xFF) ∧
    decodeWord 0xAFFF = .ok (.ldI 0xFFF) ∧ decodeWord 0xD123 = .ok (.drw 1 2 3) := by decide
theorem test_witness_AssemblerLinesGiveTheirEncoding :
    (AsmLine.call 0xFFF).assemble = some 0x2FFF ∧ (AsmLine.call 0x1000).assemble = none ∧
    (AsmLine.ldVx 15 0xFF).assemble = some 0x6FFF ∧ (AsmLine.ldVx 15 0x100).assemble = none ∧
    (AsmLine.drw 15 15 15).assemble = some 0xDFFF ∧ (AsmLine.drw 15 16 15).assemble = none ∧
    (AsmLine.dw 0xFFFF).assemble = some 0xFFFF ∧ (AsmLine.dw 0x10000).assemble = none := by decide
theorem test_witness_DeviceAccessesActInsideTheCapacityOnly :
    capacity .ram ≤ 0x1000 ∧ 0x0FFF < capacity .ram ∧ capacity .fb ≤ 0x800 ∧ 0x7FF < capacity .fb ∧
    capacity .ram < 0x0FFF + 2 ∧ 0x0FFE + 2 ≤ capacity .ram ∧
    capacity .ram < 0x0FFF + ([1, 2] : List Byte).length ∧ 0x0FFE + ([1, 2] : List Byte).length ≤ capacity .ram := by
  decide
theorem test_witness_DeviceWritesKeepTheCanonicalForm :
    Memory.wf .ram [(0x200, 1)] ∧ devWrite .ram [(0x200, 1)] 0x0FFF 7 = .ok [(0x200, 1), (0x0FFF, 7)] ∧
    devWriteRange .ram [(0x200, 1)] 0x200 [0, 2] = .ok [(0x201, 2)] := by decide +kernel
theorem test_witness_EqualBytesAreEqualMemories :
    Memory.wf .fb [(0x7FF, 1)] ∧ ∀ off, off < capacity .fb → byteOf .fb [(0x7FF, 1)] off = byteOf .fb [(0x7FF, 1)] off :=
  ⟨by decide, fun _ _ => rfl⟩
theorem test_witness_RegistrationChecksThenRecords_refusals :
    (0x0080 ≠ 0 ∧ 0x0080 % 0x100 ≠ 0) ∧ 0x1000 % 0x100 = 0 ∧ 0x80 % 0x100 ≠ 0 ∧ capacity .ram < 0x0F80 + 0x100 ∧
    (regionOf fixedMap 0xF800).isSome = true := by decide +kernel
theorem test_witness_RegistrationChecksThenRecords_records :
    (registerRegion [] 0x0000 0x1000 .ram 0 = .ok [ramRegion]) ∧ regionOf [] 0x0FFF = none := by decide +kernel
/-- A table no registration builds: the region reaches past RAM. -/
theorem test_witness_AddressOutOfRangeNeedsAnUnregisteredTable :
    let r : Region := ⟨0, 0x100, ⟨.ram, 0x1100, 0⟩⟩
    regionOf [r] 0x1000 = some r ∧ capacity r.mapping.dev ≤ r.offset 0x1000 ∧
    capacity r.mapping.dev < r.offset 0x0FFF + min 2 (r.remaining 0x0FFF) ∧
    registerRegion [] 0x0000 0x1000 .ram 0 = .ok [ramRegion] ∧ regionOf fixedMap 0x0FFF = some ramRegion := by
  decide +kernel
theorem test_witness_ResetRegistersTheFixedMap :
    regionOf fixedMap 0x0FFF = some ramRegion ∧ regionOf fixedMap 0x1000 = none ∧ regionOf fixedMap 0xF7FF = none ∧
    regionOf fixedMap 0xF800 = some fbRegion ∧ regionOf fixedMap 0xFFFF = some fbRegion := by decide +kernel
/-- E1. -/
theorem test_witness_ReadAfterWriteGivesTheByteWritten :
    (memWrite1 State.reset 0x0FFF 0x5A).bind (fun t => memRead1 t 0x0FFF) = .ok 0x5A ∧
    (memWrite1 State.reset 0xF805 0x01).bind (fun t => memRead1 t 0xF805) = .ok 0x01 := by decide +kernel
theorem test_witness_UnmappedAccessesRaiseAddressInvalid :
    memRead1 State.reset 0x1000 = .error (.addressInvalid 0x1000) ∧
    memRead1 State.reset 0xF7FF = .error (.addressInvalid 0xF7FF) ∧ memRead1 State.reset 0x0FFF = .ok 0 ∧
    memRead1 State.reset 0xF800 = .ok 0 := by decide +kernel
theorem test_witness_RangeReadsAreWholeOrShort :
    memRead State.reset 0x0FFE 2 = .ok [0, 0] ∧ memRead State.reset 0x0FFE 3 = .error (.shortRead 0x0FFE 3 2) ∧
    memRead State.reset 0xFFFE 2 = .ok [0, 0] ∧ memRead State.reset 0xFFFE 4 = .error (.shortRead 0xFFFE 4 2) := by
  decide +kernel
theorem test_witness_RangeWritesAreWholeOrNothing :
    (memWrite State.reset 0x0FFE [1, 2]).map (fun t => t.ram) = .ok [(0x0FFE, 1), (0x0FFF, 2)] ∧
    (memWrite State.reset 0xFFFF [1]).map (fun t => t.fb) = .ok [(0x7FF, 1)] ∧
    memWrite State.reset 0xFFFF [1, 1] = .error (.shortRead 0xFFFF 2 1) := by decide +kernel
/-- MEM-11, and the corner. -/
theorem test_witness_PixelsAreTheFramebufferBytes :
    pixelAddr 0 1 = 0xF840 ∧ pixelAddr 63 31 = 0xFFFF ∧ pixelAddr 0 0 = 0xF800 := by decide
/-- E3. -/
theorem test_witness_PushAppendsOrAnswersFalse :
    (stackOf 16).length = 16 ∧ (stackOf 15).length < 16 := by decide
theorem test_witness_PopRemovesTheTopOrAnswersFalse :
    State.reset.stack = [] ∧ ({ State.reset with stack := [0x0202, 0x0300] }).stack = [0x0202] ++ [0x0300] := by decide
theorem test_witness_CallPushesPcAndJumps : ({ at200 0x2300 with stack := stackOf 15 }).stack.length < 16 := by decide
theorem test_witness_CallOnAFullStackOverflows : ({ at200 0x2300 with stack := stackOf 16 }).stack.length = 16 := by
  decide
theorem test_witness_RetPopsTheStackIntoPc : ({ at200 0x00EE with stack := stackOf 16 }).stack = stackOf 15 ++ [0x0202] := by
  decide
theorem test_witness_RetOnAnEmptyStackUnderflows : (at200 0x00EE).stack = [] := by decide
theorem test_witness_DrwXorsTheSpriteOntoTheFramebuffer :
    memRead drawn13 drawn13.index.toNat (1 : Nibble).toNat = .ok [0xC0] ∧
    memRead { State.reset with index := 0x0FFF } 0x0FFF (0 : Nibble).toNat = .ok [] := by decide +kernel
theorem test_witness_DrwXors_collision : drawn13.Collides (spriteBit [0xC0] 0 0) :=
  ⟨0, 0, by decide, by decide, by decide⟩
theorem test_witness_DrwXors_noCollision : ¬ State.reset.Collides (spriteBit [0xC0] 0 0) :=
  fun ⟨_, _, _, _, h⟩ => absurd (show (0 : Byte) = 1 from h) (by decide)
theorem test_witness_DrwCompletesExactlyWhenTheSpriteFits :
    (0x0FFB : Word).toNat + (5 : Nibble).toNat = 0x1000 ∧ (0xFFF1 : Word).toNat + (0xF : Nibble).toNat = 0x10000 := by
  decide
theorem test_witness_DrwPastTheEndOfRamIsAShortRead :
    (0x0FFE : Word).toNat < 0x1000 ∧ 0x1000 < (0x0FFE : Word).toNat + (3 : Nibble).toNat := by decide
theorem test_witness_DrawingTwiceRestoresEveryPixel :
    drawn13.Inv ∧ (0 : Nibble) ≠ 0xF ∧ (1 : Nibble) ≠ 0xF ∧
    memRead drawn13 drawn13.index.toNat (1 : Nibble).toNat = .ok [0xC0] :=
  ⟨inv_of_check (by decide +kernel), by decide, by decide, by decide +kernel⟩
theorem test_witness_StepRunsTheDecodedInstruction :
    memRead (at200 0xD015) (at200 0xD015).pc.toNat 2 = .ok [0xD0, 0x15] ∧
    decode [0xD0, 0x15] = .ok (.drw 0 1 5, []) := by decide +kernel
/-- FETCH-2, an odd PC, and the last whole fetch. -/
theorem test_witness_FetchIsTheBigEndianWordAtPc :
    memRead1 (atPc 0x201 0x6007) 0x201 = .ok 0x60 ∧ memRead1 (atPc 0x201 0x6007) 0x202 = .ok 0x07 ∧
    memRead1 (atPc 0xFFE 0x6001) 0xFFE = .ok 0x60 ∧ memRead1 (atPc 0xFFE 0x6001) 0xFFF = .ok 0x01 := by decide +kernel
theorem test_witness_FetchFaultsChangeNothing :
    (0x1000 ≤ (0x1000 : Word).toNat ∧ (0xF7FF : Word).toNat < 0xF800) ∧ (0x0FFE : Word).toNat < 0x0FFF ∧
    (0xF800 ≤ (0xF800 : Word).toNat ∧ (0xFFFE : Word).toNat < 0xFFFF) := by decide
theorem test_witness_UnclaimedWordRaisesUnknownInstruction :
    fetchWord (at200 0x00E1) = .ok 0x00E1 ∧ dispatchTable.all (fun e => !e.claims 0x00E1) = true ∧
    ∀ e : Entry, e ∈ dispatchTable :=
  ⟨by decide +kernel, by decide, fun e => by cases e <;> decide⟩
/-- A tick faults in its fetch (FETCH-4), at decode (UNK-1), in its execution (RET-1). -/
theorem test_witness_FaultingTickKeepsTheState :
    ({ State.reset with pc := 0x1000 }).tick.result = some (.fault ⟨1, .addressInvalid, 0x1000, 0, 0, 0, false, 0x1000⟩) ∧
    State.reset.tick.result = some (.fault ⟨6, .unknownInstruction, 0, 0, 0, 0, true, 0x200⟩) ∧
    (at200 0x00EE).tick.result = some (.fault ⟨5, .stackUnderflow, 0, 0, 0, 0x00EE, true, 0x200⟩) ∧
    answersNext State.reset = true := by decide +kernel
theorem test_witness_CompletedTickCountsOne :
    (at200 0x6004).tick.result = some .ok ∧ answersNext (at200 0x6004) = true := by decide +kernel
theorem test_witness_DispatchLoopAgreesWithStep : fetchWord (at200 0x2ABC) = .ok 0x2ABC := by decide +kernel
/-- RET's fault, and DRW's two. -/
theorem test_witness_EachInstructionRaisesOnlyItsFaults :
    (endTick State.reset (ruleOf .ret State.reset)).result =
      some (.fault ⟨5, .stackUnderflow, 0, 0, 0, 0, true, 0x1FE⟩) ∧
    (let s := { State.reset with index := 0x0FFE }
     (endTick s (ruleOf (.drw 0 1 3) s)).result = some (.fault ⟨7, .shortRead, 0x0FFE, 3, 2, 0, true, 0x1FE⟩)) ∧
    (let s := { State.reset with index := 0x1000 }
     (endTick s (ruleOf (.drw 0 1 3) s)).result =
       some (.fault ⟨1, .addressInvalid, 0x1000, 0, 0, 0, true, 0x1FE⟩)) := by decide +kernel
/-- The states above are what `exec` answers. -/
theorem test_witness_EachInstructionRaises_exec (i : Instr) (s : State) :
    exec i s = .next (endTick s (ruleOf i s)) := exec_eq s i
/-- A state of a run that faults in the fetch at 0x1000. -/
theorem test_witness_FaultsOfARun_fetchUnmapped :
    let s := { State.reset with pc := 0x1000 }
    s.Inv ∧ s.tick.result = some (.fault ⟨1, .addressInvalid, 0x1000, 0, 0, 0, false, 0x1000⟩) :=
  ⟨inv_of_check (by decide +kernel), by decide +kernel⟩
/-- A state of a run that faults in the fetch at 0x0FFF. -/
theorem test_witness_FaultsOfARun_fetchShort :
    let s := { State.reset with pc := 0x0FFF }
    s.Inv ∧ s.tick.result = some (.fault ⟨7, .shortRead, 0x0FFF, 2, 1, 0, false, 0x0FFF⟩) :=
  ⟨inv_of_check (by decide +kernel), by decide +kernel⟩
/-- A state of a run that faults in a draw. -/
theorem test_witness_FaultsOfARun_draw :
    let s := { at200 0xD013 with index := 0x0FFE }
    s.Inv ∧ s.tick.result = some (.fault ⟨7, .shortRead, 0x0FFE, 3, 2, 0xD013, true, 0x200⟩) :=
  ⟨inv_of_check (by decide +kernel), by decide +kernel⟩
theorem test_witness_NoTickChangesRamOrDt : answersNext (at200 0x6004) = true := by decide +kernel
theorem test_witness_TickDependsOnObservableStateOnly :
    SameObservable (at200 0x6004) { at200 0x6004 with dt := 7, result := some .ok } ∧
    answersNext (at200 0x6004) = true := by decide +kernel
/-- The invariant's bounds, each met with equality: 16 entries, PC and return addresses at 0x1000, I at 0x0FFF. -/
theorem test_witness_EveryStepKeepsTheInvariant :
    let s := { State.reset with stack := List.replicate 16 0x1000, pc := 0x1000, index := 0x0FFF, fb := [(0x7FF, 1)],
                                ram := [(0x0FFF, 1)] }
    s.Inv ∧ answersNext s = true := ⟨inv_of_check (by decide +kernel), by decide +kernel⟩
theorem test_witness_EveryStepKeeps_run : (at200 0x6004).Inv ∧ answersNext (at200 0x6004) = true :=
  ⟨inv_of_check (by decide +kernel), by decide +kernel⟩
theorem test_witness_EveryHostActionKeepsTheInvariant : (at200 0x6004).Inv := inv_of_check (by decide +kernel)
/-- The glyph of 0 and a byte of the glyph of F; the bounds of the zeros. -/
theorem test_witness_MemoryAfterReset :
    memRead State.reset 0x000 5 = .ok [0xF0, 0x90, 0x90, 0x90, 0xF0] ∧ memRead1 State.reset 0x04F = .ok 0x80 ∧
    memRead1 State.reset 0x050 = .ok 0 ∧ memRead1 State.reset 0x0FFF = .ok 0 ∧ memRead1 State.reset 0xFFFF = .ok 0 := by
  decide +kernel
/-- HOST-3 and HOST-4. -/
theorem test_witness_LoadWritesTheProgramOrIsRefused :
    (State.reset.result = none ∧ 0x200 ≤ 0x0FFF ∧ 0x0FFF + ([0xAA] : List Byte).length ≤ 0x1000) ∧
    ¬ 0x0FFF + ([0xAA, 0xBB] : List Byte).length ≤ 0x1000 := by decide
theorem test_witness_HostChangesNothingElse :
    HostAction.load 0x200 [1] ≠ .reset ∧ HostAction.load 0x200 [1] ≠ .tick ∧
    HostAction.load 0x200 [1] ≠ .timerEvent ∧ HostAction.load 0x200 [1] ≠ .ackDirty ∧
    (at200 0x6004).tick.result ≠ none := by decide +kernel
theorem test_witness_HostChangesNothingElse_noLoad :
    HostAction.snapshot ≠ .reset ∧ HostAction.snapshot ≠ .tick ∧
    ∀ a bytes, HostAction.snapshot ≠ .load a bytes := ⟨by decide, by decide, fun _ _ h => nomatch h⟩
/-- A run of one tick that completes, and one whose second tick faults. -/
theorem test_witness_RunToFaultEndsAtTheFirstFault :
    runToFault 1 (at200 0x6004) = none ∧ (runToFault 2 (at200 0x6004)).isSome = true := by decide +kernel

end Sys2Proof.Tests
end

/-! # The state: the call stack, the invariant and the tick counter (10_state.md) -/

namespace Sys2Proof.Machine

/-! ### The end of a step -/

/-- A step that answers a next state is a tick, and the tick ends in that state (60_exceptions.md R202). -/
theorem tick_eq_of_step {s t : State} (h : step s = .next t) : s.tick = t := by
  simp only [State.tick, HostAction.apply, h]

/-- No step stops: it always answers the state after the tick (R193). -/
theorem step_eq_next_tick (s : State) : step s = .next s.tick := by
  obtain ⟨_, _, h⟩ | ⟨_, _, _, _, h⟩ | ⟨_, _, _, _, h⟩ := step_cases s <;> rw [h, tick_eq_of_step h]

/-- The two ends of DECODE, EXECUTE and POST of a claimed word (40_core_cycle.md R117, R118). -/
theorem endTick_completed_or_faulted (i : Instr) (s : State) :
    TickCompleted s (endTick s (ruleOf i s)) ∨ ∃ r, TickFaulted s (endTick s (ruleOf i s)) r := by
  obtain ⟨f, h⟩ | ⟨t, h, _, _, hticks, _, _, hfirst⟩ := ruleOf_cases s i <;> rw [h]
  · exact .inr ⟨s.executeRecord f, rfl, rfl, rfl⟩
  · exact .inl ⟨by simp [hticks], rfl, by simp [hfirst]⟩

/-- Every tick completes and counts one, or returns a fault record and counts none (R117 to R119). -/
theorem tick_completed_or_faulted (s : State) : TickCompleted s s.tick ∨ ∃ r, TickFaulted s s.tick r := by
  obtain ⟨f, _, h⟩ | ⟨w, _, _, _, h⟩ | ⟨w, i, _, _, h⟩ := step_cases s <;> rw [tick_eq_of_step h]
  · exact .inr ⟨_, rfl, rfl, rfl⟩
  · exact .inr ⟨_, rfl, rfl, rfl⟩
  · exact endTick_completed_or_faulted i (s.fetched w)

/-! ### The bounds of PC and of an address operand -/

/-- An address operand lies in RAM (30_encoding.md R91). -/
theorem zext16_lt_ramSize (nnn : Addr12) : (zext16 nnn).toNat < ramSize := by
  have hlt : nnn.toNat < 0x1000 := nnn.isLt
  have heq : (zext16 nnn).toNat = nnn.toNat := by
    simp only [zext16, BitVec.truncate_eq_setWidth, BitVec.toNat_setWidth]
    omega
  rwa [heq]

/-- A fetch that gives a word read two bytes at PC (R112). -/
theorem memRead_of_fetchWord {s : State} {w : Word} (h : fetchWord s = .ok w) :
    ∃ bs, memRead s s.pc.toNat 2 = .ok bs := by
  cases hm : memRead s s.pc.toNat 2 with
  | error f => simp [fetchWord, hm] at h
  | ok bs => exact ⟨bs, rfl⟩

/-- Where PC is at most 0x1000, a word is fetched from RAM only, so the advance of R113 stays at most 0x1000
(20_memory.md R79). -/
theorem pc_add_two_le_ramSize {s : State} {w : Word} (hpc : s.pc.toNat ≤ ramSize) (h : fetchWord s = .ok w) :
    (s.pc + 2).toNat ≤ ramSize := by
  have hread := (memRead_ok_iff s s.pc.toNat 2).mp (memRead_of_fetchWord h)
  simp only [ramSize] at hpc ⊢
  bv_omega

/-! ### What keeps the invariant -/

section Invariant

variable {s t : State}

/-- The fetch advance and the decode of a fetched word keep the invariant. -/
theorem inv_fetched {w : Word} (hs : s.Inv) (h : fetchWord s = .ok w) : (s.fetched w).Inv := by
  obtain ⟨hmem, hpix, hstack, hpc, hret, hindex⟩ := hs
  exact ⟨hmem, hpix, hstack, pc_add_two_le_ramSize hpc h, hret, hindex⟩

/-- CLS writes zeros to the framebuffer. -/
theorem inv_clsRule (hs : s.Inv) (h : clsRule s = .claimedOk t) : t.Inv := by
  obtain ⟨⟨hram, hfb⟩, hpix, hstack, haddr⟩ := hs
  rw [clsRule_eq] at h
  cases h
  exact ⟨⟨hram, clearedFb_wf hfb⟩, clearedFb_binary hpix, hstack, haddr⟩

/-- RET moves a return address to PC, which has the same bound (42_flow.md R150). -/
theorem inv_retRule (hs : s.Inv) (h : retRule s = .claimedOk t) : t.Inv := by
  obtain ⟨hmem, hpix, hstack, _, hret, hindex⟩ := hs
  obtain ⟨_, hr⟩ | ⟨ws, a, hws, hr⟩ := retRule_cases s <;> rw [hr] at h <;> cases h
  have hlen : ws.length ≤ stackDepth := by
    have : s.stack.length = ws.length + 1 := by simp [hws]
    omega
  have htop : a.toNat ≤ ramSize := hret a (by simp [hws])
  have hrest : ∀ b ∈ ws, b.toNat ≤ ramSize := fun b hb => hret b (by simp [hws, hb])
  exact ⟨hmem, hpix, hlen, htop, hrest, hindex⟩

/-- CALL moves PC to the stack, which has room, and an operand to PC (42_flow.md R151). -/
theorem inv_callRule {nnn : Addr12} (hs : s.Inv) (h : callRule nnn s = .claimedOk t) : t.Inv := by
  obtain ⟨hmem, hpix, _, hpc, hret, hindex⟩ := hs
  obtain ⟨_, hr⟩ | ⟨hroom, hr⟩ := callRule_cases s nnn <;> rw [hr] at h <;> cases h
  have hlen : (s.stack ++ [s.pc]).length ≤ stackDepth := by simpa using hroom
  have hstack : ∀ b ∈ s.stack ++ [s.pc], b.toNat ≤ ramSize := by
    intro b hb
    rcases List.mem_append.mp hb with hb | hb
    · exact hret b hb
    · rwa [List.mem_singleton.mp hb]
  exact ⟨hmem, hpix, hlen, (zext16_lt_ramSize nnn).le, hstack, hindex⟩

/-- A draw writes 0 and 1 to the framebuffer, and the addresses stay (41_display.md R133). -/
theorem Drawn.inv {cover : Nat → Nat → Bool} (hd : Drawn cover s t) (hs : s.Inv) : t.Inv := by
  obtain ⟨⟨hram, hfb⟩, hpix, hstack, haddr⟩ := hs
  have hbound : t.StackBounded := by simpa only [State.StackBounded, hd.stack] using hstack
  have haddr' : t.AddressesInRam := by
    simpa only [State.AddressesInRam, hd.pc, hd.stack, hd.index] using haddr
  exact ⟨⟨hd.ram ▸ hram, hd.wf hfb⟩, hd.binary hpix, hbound, haddr'⟩

/-- DRW draws from the state with VF cleared and sets dirty (R131); the invariant speaks of neither. -/
theorem inv_drwRule {x y n : Nibble} (hs : s.Inv) (h : drwRule x y n s = .claimedOk t) : t.Inv := by
  obtain ⟨_, _, hr⟩ | ⟨sprite, u, _, hd, hr⟩ := drwRule_cases s x y n <;> rw [hr] at h <;> cases h
  have hclear : s.clearCollision.Inv := hs
  have hdrawn : u.Inv := hd.inv hclear
  exact hdrawn

/-- Every instruction's rule keeps the invariant. -/
theorem inv_ruleOf {i : Instr} (hs : s.Inv) (h : ruleOf i s = .claimedOk t) : t.Inv := by
  cases i with
  | cls => exact inv_clsRule hs h
  | ret => exact inv_retRule hs h
  | call nnn => exact inv_callRule hs h
  | ldVx x kk => cases h; exact hs
  | ldI nnn =>
    obtain ⟨hmem, hpix, hstack, hpc, hret, _⟩ := hs
    cases h
    exact ⟨hmem, hpix, hstack, hpc, hret, zext16_lt_ramSize nnn⟩
  | drw x y n => exact inv_drwRule hs h

/-- Execution keeps the invariant: a rule that fails leaves the state as it was, and the end of the tick writes only
the counter and the result. -/
theorem inv_endTick (i : Instr) (hs : s.Inv) : (endTick s (ruleOf i s)).Inv := by
  obtain ⟨f, h⟩ | ⟨t, h, _⟩ := ruleOf_cases s i
  · rw [h]
    exact hs
  · have ht : t.Inv := inv_ruleOf hs h
    rw [h]
    exact ht

end Invariant

/-- Settles O46: the fetch leaves PC at most 0x1000, and every rule keeps the invariant from there. -/
theorem everyStepKeepsTheInvariant : Obligations.EveryStepKeepsTheInvariant := by
  unfold Obligations.EveryStepKeepsTheInvariant
  intro s t hs h
  obtain ⟨f, _, hstep⟩ | ⟨w, _, hw, _, hstep⟩ | ⟨w, i, hw, _, hstep⟩ := step_cases s <;>
    rw [hstep] at h <;> cases h
  · exact hs
  · exact inv_fetched hs hw
  · exact inv_endTick i (inv_fetched hs hw)

/-! ### The tick counter -/

/-- One tick adds to the counter what it adds to the count of completed ticks (10_state.md R32). -/
theorem tick_ticks (s : State) :
    s.tick.ticks = s.ticks + BitVec.ofNat 64 (if s.tick.result == some .ok then 1 else 0) := by
  obtain ⟨hticks, hres, _⟩ | ⟨r, hticks, hres, _⟩ := tick_completed_or_faulted s <;> simp [hticks, hres]

/-- Settles O57, by induction on the number of ticks. -/
theorem tickCounterCountsCompletedTicks : Obligations.TickCounterCountsCompletedTicks := by
  unfold Obligations.TickCounterCountsCompletedTicks
  intro k
  induction k with
  | zero => simp [runTicks]
  | succ k ih =>
    intro s
    simp only [runTicks, ih s.tick, tick_ticks s, List.countP_cons, BitVec.ofNat_add]
    ac_rfl

/-! ### The call stack -/

/-- Settles O19: the model's Push at its capacity and below it. -/
theorem pushAppendsOrAnswersFalse : Obligations.PushAppendsOrAnswersFalse :=
  fun _ w => ⟨fun h => State.push_full h.ge w, fun h => State.push_room h w⟩

/-- Settles O20: the model's Pop of an empty stack and of one with a top. -/
theorem popRemovesTheTopOrAnswersFalse : Obligations.PopRemovesTheTopOrAnswersFalse :=
  fun _ => ⟨State.pop_empty, fun _ _ h => State.pop_top h⟩

end Sys2Proof.Machine

/-! # The devices: single and range accesses, and the canonical form (20_memory.md R51 to R56) -/

namespace Sys2Proof.Machine

/-! ### Accesses inside and past the capacity -/

/-- What a byte reads as after an overwrite, with the new byte taken from the list by its index. -/
theorem byteOf_overwrite_getD (d : DeviceId) (m : Memory) (off : Nat) (vs : List Byte) (a : Nat) :
    byteOf d (overwrite d m off vs) a =
      if off ≤ a ∧ a < off + vs.length then vs.getD (a - off) 0 else byteOf d m a := by
  rw [byteOf_overwrite]
  by_cases h : off ≤ a ∧ a < off + vs.length
  · rw [dif_pos h, if_pos h, List.getD_eq_getElem _ _ (by omega)]
  · rw [dif_neg h, if_neg h]

/-- Settles O8: each access below the capacity is the model's read or overwrite there. -/
theorem deviceAccessesActInsideTheCapacityOnly : Obligations.DeviceAccessesActInsideTheCapacityOnly := by
  unfold Obligations.DeviceAccessesActInsideTheCapacityOnly
  intro d m off
  refine ⟨fun h => ⟨if_pos h, fun b => if_pos h⟩, fun h => ⟨devRead_eq d m off h, fun b => ?_⟩,
    fun len h => if_pos h, fun len h => ?_, fun vs h => if_pos h, fun vs h => ?_⟩
  · exact ⟨_, devWrite_eq d m off b h, byteOf_overwrite_one d m off b⟩
  · exact ⟨_, devReadRange_eq d m off len h, by simp, fun k hk => by simp [hk]⟩
  · exact ⟨_, devWriteRange_eq d m off vs h, byteOf_overwrite_getD d m off vs⟩

/-- Settles O9: DevReset lists only what differs from the reset contents, and an overwrite inside the capacity keeps
the canonical form. -/
theorem deviceWritesKeepTheCanonicalForm : Obligations.DeviceWritesKeepTheCanonicalForm :=
  fun d => ⟨⟨devReset_wf d, byteOf_devReset d⟩,
    fun _ hm => ⟨fun _ _ _ => devWrite_wf hm, fun _ _ _ => devWriteRange_wf hm⟩⟩

/-! ### Contents in canonical form -/

/-- A byte found at an offset is listed there. -/
theorem mem_of_lookup {m : Memory} {a : Nat} {b : Byte} (h : lookup m a = some b) : (a, b) ∈ m := by
  induction m with
  | nil => simp [lookup] at h
  | cons c cs ih =>
    simp only [lookup] at h
    split at h
    next hc =>
      cases h
      simp [← hc]
    next => exact List.mem_cons_of_mem _ (ih h)

/-- Where offsets rise strictly, a listed byte is the one found at its offset. -/
theorem lookup_of_mem {m : Memory} (hm : m.Pairwise (fun a b => a.1 < b.1)) {c : Host.Cell} (h : c ∈ m) :
    lookup m c.1 = some c.2 := by
  induction m with
  | nil => simp at h
  | cons x xs ih =>
    obtain ⟨hx, hxs⟩ := List.pairwise_cons.mp hm
    simp only [lookup]
    rcases List.mem_cons.mp h with rfl | h
    · simp
    · rw [if_neg (hx c h).ne, ih hxs h]

/-- In canonical form the cells listed are exactly the bytes below the capacity that differ from their reset
contents. -/
theorem Memory.wf.mem_iff {d : DeviceId} {m : Memory} (hm : m.wf d) (c : Host.Cell) :
    c ∈ m ↔ c.1 < capacity d ∧ c.2 ≠ initByte d c.1 ∧ byteOf d m c.1 = c.2 := by
  obtain ⟨hsorted, hcells⟩ := hm
  constructor
  · intro h
    obtain ⟨hlt, hne⟩ := hcells c h
    exact ⟨hlt, hne, by simp [byteOf, lookup_of_mem hsorted h]⟩
  · rintro ⟨_, hne, hbyte⟩
    unfold byteOf at hbyte
    cases hl : lookup m c.1 with
    | none => simp [hl, hne.symm] at hbyte
    | some b =>
      have hb : b = c.2 := by simpa [hl] using hbyte
      exact mem_of_lookup (hb ▸ hl)

/-- Lists of cells with strictly rising offsets and the same cells are the same list. -/
theorem eq_of_mem_iff_of_rising {m m' : Memory} (hm : m.Pairwise (fun a b => a.1 < b.1))
    (hm' : m'.Pairwise (fun a b => a.1 < b.1)) (h : ∀ c, c ∈ m ↔ c ∈ m') : m = m' := by
  have : Std.Irrefl (fun a b : Host.Cell => a.1 < b.1) := ⟨fun a => lt_irrefl a.1⟩
  have : Std.Antisymm (fun a b : Host.Cell => a.1 < b.1) := ⟨fun a b hab hba => absurd hba hab.asymm⟩
  exact hm.eq_of_mem_iff hm' h

/-- Settles O10: the cells of a canonical form are fixed by its bytes, and so is their order. -/
theorem equalBytesAreEqualMemories : Obligations.EqualBytesAreEqualMemories := by
  unfold Obligations.EqualBytesAreEqualMemories
  intro d m m' hm hm' hbytes
  refine eq_of_mem_iff_of_rising hm.1 hm'.1 fun c => ?_
  rw [hm.mem_iff, hm'.mem_iff]
  exact and_congr_right fun hc => by rw [hbytes c.1 hc]

end Sys2Proof.Machine

/-! # Registration and the fixed map (20_memory.md R57 to R63) -/

namespace Sys2Proof.Machine

/-! ### Spans of whole units -/

/-- A region whose start and size are whole units is recorded for the units of its own addresses only (R59). -/
theorem holdsUnit_unitIndex {r : Region} (hstart : r.start % 0x100 = 0) (hsize : r.mapping.size % 0x100 = 0)
    (a : Nat) : r.holdsUnit (unitIndex a) = decide (r.start ≤ a ∧ a < r.start + r.mapping.size) := by
  simp only [Region.holdsUnit, unitIndex, align]
  congr 1
  exact propext (by omega)

/-- The check of R60 on a span of whole units: one of its units is taken exactly when one of its addresses is. -/
theorem anyUnitTaken_iff {rt : RegionTable} {start size : Nat} (hstart : start % 0x100 = 0)
    (hsize : size % 0x100 = 0) :
    (List.range (size / align)).any (fun k => (regionOfUnit rt (start / align + k)).isSome) = true ↔
      ∃ a, start ≤ a ∧ a < start + size ∧ (regionOf rt a).isSome = true := by
  simp only [List.any_eq_true, List.mem_range, align]
  constructor
  · rintro ⟨k, hk, htaken⟩
    have hunit : unitIndex (start + 0x100 * k) = start / 0x100 + k := by simp only [unitIndex, align]; omega
    exact ⟨start + 0x100 * k, by omega, by omega, by rwa [regionOf, hunit]⟩
  · rintro ⟨a, hlo, hhi, htaken⟩
    have hunit : start / 0x100 + (a / 0x100 - start / 0x100) = unitIndex a := by simp only [unitIndex, align]; omega
    exact ⟨a / 0x100 - start / 0x100, by omega, by rwa [hunit]⟩

/-- A region added to a table that maps none of its addresses takes those, and leaves every other as it was (R59,
R62). -/
theorem regionOf_append_region {rt : RegionTable} {r : Region} (hstart : r.start % 0x100 = 0)
    (hsize : r.mapping.size % 0x100 = 0)
    (hfree : ∀ a, r.start ≤ a → a < r.start + r.mapping.size → regionOf rt a = none) (a : Nat) :
    regionOf (rt ++ [r]) a =
      if r.start ≤ a ∧ a < r.start + r.mapping.size then some r else regionOf rt a := by
  have happ : regionOf (rt ++ [r]) a =
      (regionOf rt a).or (if r.start ≤ a ∧ a < r.start + r.mapping.size then some r else none) := by
    simp [regionOf, regionOfUnit, List.find?_append, List.find?_singleton, holdsUnit_unitIndex hstart hsize]
  by_cases hspan : r.start ≤ a ∧ a < r.start + r.mapping.size
  · rw [happ, if_pos hspan, if_pos hspan, hfree a hspan.1 hspan.2, Option.none_or]
  · rw [happ, if_neg hspan, if_neg hspan, Option.or_none]

/-! ### Registration -/

section Registration

variable {rt : RegionTable} {start size : Nat} {d : DeviceId} {devOffset : Nat}

/-- A misaligned start is the first check (R58). -/
theorem registerRegion_misaligned (h : start ≠ 0 ∧ start % 0x100 ≠ 0) :
    registerRegion rt start size d devOffset = .error (.invalidRegionAlignment start) := if_pos h

/-- From an aligned start, each failing check of R60 refuses the registration, and none of its errors is a fault. -/
theorem registerRegion_refused (hstart : start % 0x100 = 0)
    (h : size = 0 ∨ size % 0x100 ≠ 0 ∨ capacity d < devOffset + size ∨
      ∃ a, start ≤ a ∧ a < start + size ∧ (regionOf rt a).isSome = true) :
    ∃ e, registerRegion rt start size d devOffset = .error e ∧ e.faultInfo = none := by
  have halign : ¬ (start ≠ 0 ∧ start % align ≠ 0) := fun h => h.2 hstart
  unfold registerRegion
  rw [if_neg halign]
  split_ifs with hzero hsize hcap htaken
  · exact ⟨_, rfl, rfl⟩
  · exact ⟨_, rfl, rfl⟩
  · exact ⟨_, rfl, rfl⟩
  · exact ⟨_, rfl, rfl⟩
  · rw [anyUnitTaken_iff hstart (not_not.mp hsize)] at htaken
    exact absurd h (by simp only [not_or]; exact ⟨hzero, hsize, hcap, htaken⟩)

/-- When every check passes, the region is added to the table (R59). -/
theorem registerRegion_ok (hstart : start % 0x100 = 0) (hzero : size ≠ 0) (hsize : size % 0x100 = 0)
    (hcap : devOffset + size ≤ capacity d)
    (hfree : ∀ a, start ≤ a → a < start + size → regionOf rt a = none) :
    registerRegion rt start size d devOffset = .ok (rt ++ [⟨start, align, ⟨d, size, devOffset⟩⟩]) := by
  have halign : ¬ (start ≠ 0 ∧ start % align ≠ 0) := fun h => h.2 hstart
  have huntaken : ¬ (∃ a, start ≤ a ∧ a < start + size ∧ (regionOf rt a).isSome = true) := by
    rintro ⟨a, hlo, hhi, htaken⟩
    simp [hfree a hlo hhi] at htaken
  rw [← anyUnitTaken_iff hstart hsize] at huntaken
  have hunits : ¬ size % align ≠ 0 := not_not_intro hsize
  unfold registerRegion
  rw [if_neg halign, if_neg hzero, if_neg hunits, if_neg (Nat.not_lt.mpr hcap), if_neg huntaken]

end Registration

/-- Settles O11: the checks in their order, then the added region takes exactly its span. -/
theorem registrationChecksThenRecords : Obligations.RegistrationChecksThenRecords := by
  unfold Obligations.RegistrationChecksThenRecords
  intro rt start size d devOffset
  refine ⟨registerRegion_misaligned, registerRegion_refused, fun hstart hzero hsize hcap hfree => ?_⟩
  exact ⟨_, registerRegion_ok hstart hzero hsize hcap hfree, regionOf_append_region hstart hsize hfree⟩

/-- Settles O13: units 0x00 to 0x0F are the addresses below 0x1000, units 0xF8 to 0xFF those from 0xF800 on. -/
theorem resetRegistersTheFixedMap : Obligations.ResetRegistersTheFixedMap := by
  unfold Obligations.ResetRegistersTheFixedMap
  refine ⟨buildMap_eq, fun a ha => ?_⟩
  have hram : a / 0x100 ≤ 0x0F ↔ a < 0x1000 := by omega
  have hfb : 0xF8 ≤ a / 0x100 ↔ 0xF800 ≤ a ∧ a < 0x10000 := by omega
  rw [regionOf_fixedMap]
  simp only [hram, hfb]
  rfl

end Sys2Proof.Machine

/-! # The core's memory primitives over the fixed map, said once for both regions (20_memory.md R64 to R71) -/

namespace Sys2Proof.Machine

/-! ### A mapped address as a device and an offset -/

/-- The region of the fixed map that serves a device (R61). -/
def DeviceId.region : DeviceId → Region
  | .ram => ramRegion
  | .fb => fbRegion

/-- The logical address of a device's byte 0 (R61). -/
def DeviceId.base (d : DeviceId) : Nat := d.region.start

@[simp] theorem DeviceId.base_ram : DeviceId.ram.base = 0 := rfl
@[simp] theorem DeviceId.base_fb : DeviceId.fb.base = 0xF800 := rfl
@[simp] theorem DeviceId.region_dev (d : DeviceId) : d.region.mapping.dev = d := by cases d <;> rfl
@[simp] theorem DeviceId.region_offset (d : DeviceId) (off : Nat) : d.region.offset (d.base + off) = off := by
  cases d <;> simp [DeviceId.region]
@[simp] theorem DeviceId.region_remaining (d : DeviceId) (off : Nat) :
    d.region.remaining (d.base + off) = capacity d - off := by
  cases d <;> simp [DeviceId.region]

theorem regionOf_base_add {d : DeviceId} {off : Nat} (h : off < capacity d) :
    regionOf fixedMap (d.base + off) = some d.region := by
  cases d
  case ram => exact regionOf_ram (by simpa using h)
  case fb =>
    rw [capacity_fb] at h
    exact regionOf_fb (by simp) (by rw [DeviceId.base_fb]; omega)

/-- Every mapped address is a byte of one of the devices. -/
theorem exists_base_add_of_mapped {a : Nat} (h : a < 0x1000 ∨ (0xF800 ≤ a ∧ a < 0x10000)) :
    ∃ (d : DeviceId) (off : Nat), a = d.base + off ∧ off < capacity d := by
  rcases h with h | ⟨hlo, hhi⟩
  · exact ⟨.ram, a, by simp, by simpa using h⟩
  · exact ⟨.fb, a - 0xF800, by rw [DeviceId.base_fb]; omega, by rw [capacity_fb]; omega⟩

/-- The two spans of the fixed map are the two devices' spans. -/
theorem span_eq_of_mem {lo hi : Nat} (h : (lo, hi) ∈ [(0x0000, 0x1000), (0xF800, 0x10000)]) :
    ∃ d : DeviceId, lo = d.base ∧ hi = d.base + capacity d := by
  simp only [List.mem_cons, List.not_mem_nil, or_false, Prod.mk.injEq] at h
  rcases h with ⟨rfl, rfl⟩ | ⟨rfl, rfl⟩
  · exact ⟨.ram, by simp, by simp⟩
  · exact ⟨.fb, by simp, by simp⟩

/-- Replacing a device's contents changes the two memories only. -/
theorem State.setDevice_eq (s : State) (d : DeviceId) (m : Memory) :
    s.setDevice d m = { s with ram := (s.setDevice d m).ram, fb := (s.setDevice d m).fb } := by
  cases d <;> rfl

section Accesses

variable (s : State) {d : DeviceId} {off : Nat}

/-! ### Single bytes -/

theorem memRead1_base_add (h : off < capacity d) :
    memRead1 s (d.base + off) = .ok (byteOf d (s.device d) off) := by
  have := routerRead_of_region s (regionOf_base_add h) (by simpa using h)
  rwa [DeviceId.region_offset, DeviceId.region_dev] at this

theorem memWrite1_base_add (h : off < capacity d) (b : Byte) :
    memWrite1 s (d.base + off) b = .ok (s.setDevice d (overwrite d (s.device d) off [b])) := by
  have := routerWrite_of_region s (regionOf_base_add h) (by simpa using h) b
  rwa [DeviceId.region_offset, DeviceId.region_dev] at this

/-- Every byte of the address space after an overwrite of one device. -/
theorem memRead1_setDevice_overwrite {vs : List Byte} (h : off + vs.length ≤ capacity d) (a : Nat) :
    memRead1 (s.setDevice d (overwrite d (s.device d) off vs)) a =
      if d.base + off ≤ a ∧ a < d.base + off + vs.length then .ok (vs.getD (a - (d.base + off)) 0)
      else memRead1 s a := by
  cases d
  case ram => simpa using memRead1_overwriteRam s off vs h a
  case fb => exact memRead1_overwriteFb s off vs h a

/-! ### Ranges -/

/-- The bytes of a device from `off` on, `n` of them. -/
def bytesFrom (d : DeviceId) (m : Memory) (off n : Nat) : List Byte :=
  (List.range n).map (fun k => byteOf d m (off + k))

@[simp] theorem length_bytesFrom (m : Memory) (n : Nat) : (bytesFrom d m off n).length = n := by simp [bytesFrom]

/-- The bytes of a range are what single reads give one by one. -/
theorem memRead1_of_bytesFrom {n k : Nat} {b : Byte} (h : off + n ≤ capacity d)
    (hk : (bytesFrom d (s.device d) off n)[k]? = some b) : memRead1 s (d.base + off + k) = .ok b := by
  obtain ⟨hlt, rfl⟩ := List.getElem?_eq_some_iff.mp hk
  rw [length_bytesFrom] at hlt
  rw [Nat.add_assoc, memRead1_base_add s (by omega)]
  simp [bytesFrom]

/-- RouterReadRange inside a region: cut at the region's end (R68). -/
theorem routerReadRange_base_add (h : off < capacity d) (n : Nat) :
    routerReadRange fixedMap s (d.base + off) n =
      .ok (bytesFrom d (s.device d) off (min n (capacity d - off))) := by
  have := routerReadRange_of_region s (n := n) (regionOf_base_add h)
    (by rw [DeviceId.region_offset, DeviceId.region_remaining, DeviceId.region_dev]; omega)
  rwa [DeviceId.region_offset, DeviceId.region_remaining, DeviceId.region_dev] at this

/-- MemRead inside a region: all the bytes, or ShortRead with the bytes left (R70). -/
theorem memRead_base_add (h : off < capacity d) (n : Nat) :
    memRead s (d.base + off) n =
      if off + n ≤ capacity d then .ok (bytesFrom d (s.device d) off n)
      else .error (.shortRead (d.base + off) n (capacity d - off)) := by
  simp only [memRead, routerReadRange_base_add s h, length_bytesFrom]
  by_cases hn : off + n ≤ capacity d
  · rw [if_pos hn, Nat.min_eq_left (by omega), if_neg (lt_irrefl n)]
  · rw [if_neg hn, Nat.min_eq_right (by omega), if_pos (by omega)]

/-- RouterWriteRange inside a region: the bytes up to the region's end (R69). -/
theorem routerWriteRange_base_add (h : off < capacity d) (vs : List Byte) :
    routerWriteRange fixedMap s (d.base + off) vs =
      .ok (s.setDevice d (overwrite d (s.device d) off (vs.take (capacity d - off)))) := by
  have hcut : vs.take (min vs.length (capacity d - off)) = vs.take (capacity d - off) := by
    rw [Nat.min_comm, ← List.take_eq_take_min]
  have hfit : off + (vs.take (capacity d - off)).length ≤ capacity d := by rw [List.length_take]; omega
  simp only [routerWriteRange, regionOf_base_add h, DeviceId.region_offset, DeviceId.region_remaining,
    DeviceId.region_dev, hcut, devWriteRange_eq d (s.device d) off _ hfit]

/-- The bytes RouterWriteRange leaves, address by address: those inside the region, in order, and no others (R69). -/
theorem memRead1_after_routerWriteRange (h : off < capacity d) (vs : List Byte) (a : Nat) :
    memRead1 (s.setDevice d (overwrite d (s.device d) off (vs.take (capacity d - off)))) a =
      if d.base + off ≤ a ∧ a < d.base + off + vs.length ∧ a < d.base + capacity d then
        .ok (vs.getD (a - (d.base + off)) 0)
      else memRead1 s a := by
  have hlen : (vs.take (capacity d - off)).length = min (capacity d - off) vs.length := List.length_take
  rw [memRead1_setDevice_overwrite s (by omega), hlen]
  by_cases hin : d.base + off ≤ a ∧ a < d.base + off + vs.length ∧ a < d.base + capacity d
  · have hbyte : (vs.take (capacity d - off)).getD (a - (d.base + off)) 0 = vs.getD (a - (d.base + off)) 0 := by
      simp only [List.getD_eq_getElem?_getD, List.getElem?_take]
      rw [if_pos (by omega)]
    rw [if_pos (by omega), if_pos hin, hbyte]
  · rw [if_neg (by omega), if_neg hin]

/-- MemWrite inside a region: RouterWriteRange's state, or ShortRead before any byte is written (R71). -/
theorem memWrite_base_add (h : off < capacity d) (vs : List Byte) :
    memWrite s (d.base + off) vs =
      if off + vs.length ≤ capacity d then routerWriteRange fixedMap s (d.base + off) vs
      else .error (.shortRead (d.base + off) vs.length (capacity d - off)) := by
  simp only [memWrite, regionOf_base_add h, DeviceId.region_remaining]
  by_cases hn : off + vs.length ≤ capacity d
  · rw [if_pos hn, if_neg (by omega)]
  · rw [if_neg hn, if_pos (by omega)]

theorem memWrite_unmapped {a : Nat} (h1 : 0x1000 ≤ a) (h2 : ¬ (0xF800 ≤ a ∧ a < 0x10000)) (vs : List Byte) :
    memWrite s a vs = .error (.addressInvalid a) := by
  simp only [memWrite, regionOf_unmapped h1 h2]

end Accesses

/-! ### The statements about the primitives -/

/-- Settles O14: the write overwrites one byte of the device the address lies in. -/
theorem readAfterWriteGivesTheByteWritten : Obligations.ReadAfterWriteGivesTheByteWritten := by
  unfold Obligations.ReadAfterWriteGivesTheByteWritten
  intro s a b hmapped
  obtain ⟨d, off, rfl, hoff⟩ := exists_base_add_of_mapped hmapped
  have hread := memRead1_setDevice_overwrite s (vs := [b]) hoff
  refine ⟨_, memWrite1_base_add s hoff b, ?_, fun a' ha' => ?_, State.setDevice_eq s d _⟩
  · rw [hread, if_pos (by simp)]
    simp
  · rw [hread, if_neg (by simp only [List.length_singleton]; omega)]

/-- Settles O15: an unmapped address lies in no region, a mapped one in a device's. -/
theorem unmappedAccessesRaiseAddressInvalid : Obligations.UnmappedAccessesRaiseAddressInvalid := by
  unfold Obligations.UnmappedAccessesRaiseAddressInvalid
  intro s a ha
  constructor
  · rintro ⟨hlo, hhi⟩
    have hfb : ¬ (0xF800 ≤ a ∧ a < 0x10000) := by omega
    exact ⟨memRead1_unmapped s hlo hfb, memWrite1_unmapped s hlo hfb, memRead_unmapped s hlo hfb,
      memWrite_unmapped s hlo hfb⟩
  · intro hmapped
    obtain ⟨d, off, rfl, hoff⟩ := exists_base_add_of_mapped (a := a) (by omega)
    refine ⟨⟨_, memRead1_base_add s hoff⟩, fun b => ⟨_, memWrite1_base_add s hoff b⟩, fun n f h => ?_,
      fun vs f h => ?_⟩
    · rw [memRead_base_add s hoff] at h
      split at h <;> cases h
      rfl
    · rw [memWrite_base_add s hoff, routerWriteRange_base_add s hoff] at h
      split at h <;> cases h
      rfl

/-- Settles O16: both reads give the device's bytes, and only MemRead refuses a cut. -/
theorem rangeReadsAreWholeOrShort : Obligations.RangeReadsAreWholeOrShort := by
  unfold Obligations.RangeReadsAreWholeOrShort
  intro lo hi hspan s a n hlo hhi
  obtain ⟨d, rfl, rfl⟩ := span_eq_of_mem hspan
  obtain ⟨off, rfl⟩ := Nat.exists_eq_add_of_le hlo
  have hoff : off < capacity d := by omega
  rw [routerReadRange_base_add s hoff, memRead_base_add s hoff]
  constructor
  · intro hfit
    have hn : off + n ≤ capacity d := by omega
    rw [if_pos hn, Nat.min_eq_left (by omega)]
    exact ⟨_, rfl, rfl, length_bytesFrom _ n, fun k b => memRead1_of_bytesFrom s hn⟩
  · intro hpast
    have hleft : d.base + capacity d - (d.base + off) = capacity d - off := by omega
    rw [if_neg (by omega), Nat.min_eq_right (by omega), hleft]
    exact ⟨rfl, _, rfl, length_bytesFrom _ _, fun k b => memRead1_of_bytesFrom s (by omega)⟩

/-- Settles O17: MemWrite checks the length first and then writes as the router does, which cuts the bytes. -/
theorem rangeWritesAreWholeOrNothing : Obligations.RangeWritesAreWholeOrNothing := by
  unfold Obligations.RangeWritesAreWholeOrNothing
  intro lo hi hspan s a vs hlo hhi
  obtain ⟨d, rfl, rfl⟩ := span_eq_of_mem hspan
  obtain ⟨off, rfl⟩ := Nat.exists_eq_add_of_le hlo
  have hoff : off < capacity d := by omega
  have hwrite := routerWriteRange_base_add s hoff vs
  refine ⟨fun hfit => ⟨_, ?_, hwrite⟩, fun hpast => ?_, _, hwrite, State.setDevice_eq s d _,
    memRead1_after_routerWriteRange s hoff vs⟩
  · rw [memWrite_base_add s hoff, if_pos (by omega), hwrite]
  · have hleft : d.base + capacity d - (d.base + off) = capacity d - off := by omega
    rw [memWrite_base_add s hoff, if_neg (by omega), hleft]

end Sys2Proof.Machine

/-! # What a tick reads and leaves of memory (20_memory.md R72, R76) -/

namespace Sys2Proof.Machine

/-- The value of a big-endian word (R72). -/
theorem toNat_wordOfBytes (b0 b1 : Byte) : (wordOfBytes b0 b1).toNat = b0.toNat * 0x100 + b1.toNat := by
  rw [wordOfBytes, BitVec.toNat_append, ← Nat.shiftLeft_add_eq_or_of_lt b1.isLt, Nat.shiftLeft_eq]

/-- An address from which a single read succeeds is mapped (R66). -/
theorem mapped_of_memRead1 {s : State} {a : Nat} {b : Byte} (h : memRead1 s a = .ok b) :
    a < 0x1000 ∨ (0xF800 ≤ a ∧ a < 0x10000) := by
  by_contra hun
  rw [memRead1_unmapped s (by omega) (by omega)] at h
  cases h

/-- Settles O33: where PC and PC + 1 are both mapped, both lie in one region, and the fetch reads the same two bytes. -/
theorem fetchIsTheBigEndianWordAtPc : Obligations.FetchIsTheBigEndianWordAtPc := by
  unfold Obligations.FetchIsTheBigEndianWordAtPc
  intro s b0 b1 h0 h1
  have hpc := mapped_of_memRead1 h0
  have hnext := mapped_of_memRead1 h1
  refine ⟨wordOfBytes b0 b1, ?_, toNat_wordOfBytes b0 b1⟩
  rcases hpc with hram | ⟨hlo, hhi⟩
  · have hfit : s.pc.toNat + 2 ≤ 0x1000 := by omega
    rw [memRead1_ram s hram] at h0
    rw [memRead1_ram s (by omega)] at h1
    cases h0
    cases h1
    exact fetchWord_ram s hfit
  · have hfit : s.pc.toNat + 2 ≤ 0x10000 := by omega
    rw [memRead1_fb s hlo hhi] at h0
    rw [memRead1_fb s (by omega) (by omega), Nat.sub_add_comm hlo] at h1
    cases h0
    cases h1
    exact fetchWord_fb s hlo hfit

/-- Execution and the end of the tick leave RAM and DT. -/
theorem endTick_ram_dt (i : Instr) (s : State) :
    (endTick s (ruleOf i s)).ram = s.ram ∧ (endTick s (ruleOf i s)).dt = s.dt := by
  obtain ⟨f, h⟩ | ⟨t, h, hram, hdt, _⟩ := ruleOf_cases s i <;> rw [h]
  · exact ⟨rfl, rfl⟩
  · exact ⟨hram, hdt⟩

/-- A tick leaves RAM and DT. -/
theorem tick_ram_dt (s : State) : s.tick.ram = s.ram ∧ s.tick.dt = s.dt := by
  obtain ⟨f, _, h⟩ | ⟨w, _, _, _, h⟩ | ⟨w, i, _, _, h⟩ := step_cases s <;> rw [tick_eq_of_step h]
  · exact ⟨rfl, rfl⟩
  · exact ⟨rfl, rfl⟩
  · exact endTick_ram_dt i (s.fetched w)

/-- Settles O43: a read below 0x1000 depends on RAM only, which no tick changes. -/
theorem noTickChangesRamOrDt : Obligations.NoTickChangesRamOrDt := by
  unfold Obligations.NoTickChangesRamOrDt
  intro s t h
  obtain ⟨hram, hdt⟩ := tick_ram_dt s
  rw [tick_eq_of_step h] at hram hdt
  exact ⟨hram, hdt, fun a ha => by rw [memRead1_ram t ha, memRead1_ram s ha, hram]⟩

end Sys2Proof.Machine

/-! # The encoding: fields, the decoder and the encoder (30_encoding.md) -/

namespace Sys2Proof

/-! ### Fields of a word put together from parts (R91, R100) -/

theorem fieldClass_append (c : Nibble) (nnn : Addr12) : fieldClass (c ++ nnn) = c :=
  BitVec.extractLsb'_append_eq_left

theorem fieldNNN_append (c : Nibble) (nnn : Addr12) : fieldNNN (c ++ nnn) = nnn :=
  BitVec.extractLsb'_append_eq_right

theorem fieldX_append (c x : Nibble) (kk : Byte) : fieldX (c ++ (x ++ kk)) = x :=
  (BitVec.extractLsb'_append_eq_of_add_le (by decide)).trans BitVec.extractLsb'_append_eq_left

theorem fieldKK_append (c x : Nibble) (kk : Byte) : fieldKK (c ++ (x ++ kk)) = kk :=
  (BitVec.extractLsb'_append_eq_of_add_le (by decide)).trans BitVec.extractLsb'_append_eq_right

/-! ### A word put together from its fields (R91) -/

@[simp] theorem fieldClass_append_fieldNNN (w : Word) : fieldClass w ++ fieldNNN w = w :=
  (BitVec.extractLsb'_append_extractLsb'_eq_extractLsb' rfl).trans BitVec.extractLsb'_eq_self

@[simp] theorem fieldX_append_fieldKK (w : Word) : fieldX w ++ fieldKK w = fieldNNN w :=
  BitVec.extractLsb'_append_extractLsb'_eq_extractLsb' rfl

@[simp] theorem fieldY_append_fieldN (w : Word) : fieldY w ++ fieldN w = fieldKK w :=
  BitVec.extractLsb'_append_extractLsb'_eq_extractLsb' rfl

@[simp] theorem wordOfBytes_bytes (w : Word) : wordOfBytes (w.extractLsb' 8 8) (w.extractLsb' 0 8) = w :=
  (BitVec.extractLsb'_append_extractLsb'_eq_extractLsb' rfl).trans BitVec.extractLsb'_eq_self

/-- Y is the high digit of KK. -/
theorem fieldY_eq (w : Word) : fieldY w = (fieldKK w).extractLsb' 4 4 := by
  rw [← fieldY_append_fieldN w]
  exact BitVec.extractLsb'_append_eq_left.symm

/-- N is the low digit of KK. -/
theorem fieldN_eq (w : Word) : fieldN w = (fieldKK w).extractLsb' 0 4 := by
  rw [← fieldY_append_fieldN w]
  exact BitVec.extractLsb'_append_eq_right.symm

theorem fieldY_append (c x y n : Nibble) : fieldY (c ++ (x ++ (y ++ n))) = y := by
  rw [fieldY_eq]
  exact (congrArg _ (fieldKK_append c x (y ++ n))).trans BitVec.extractLsb'_append_eq_left

theorem fieldN_append (c x y n : Nibble) : fieldN (c ++ (x ++ (y ++ n))) = n := by
  rw [fieldN_eq]
  exact (congrArg _ (fieldKK_append c x (y ++ n))).trans BitVec.extractLsb'_append_eq_right

/-! ### Which words an entry claims (R92, R93) -/

/-- The mask 0xF000 compares the class alone. -/
theorem masked_eq_iff_fieldClass_eq (w : Word) (c : Nibble) :
    w &&& 0xF000 = c ++ (0 : Addr12) ↔ fieldClass w = c := by
  rw [← fieldClass_append_fieldNNN w, Laws.class_masked, BitVec.append_left_inj, fieldClass_append]

theorem claims_iff_masked (e : Entry) (w : Word) : e.claims w = true ↔ w &&& e.mask = e.pattern :=
  beq_iff_eq

@[simp] theorem claims_cls (w : Word) : Entry.cls.claims w = true ↔ w = 0x00E0 := by
  rw [claims_iff_masked]
  exact Eq.congr_left BitVec.and_allOnes

@[simp] theorem claims_ret (w : Word) : Entry.ret.claims w = true ↔ w = 0x00EE := by
  rw [claims_iff_masked]
  exact Eq.congr_left BitVec.and_allOnes

@[simp] theorem claims_call (w : Word) : Entry.call.claims w = true ↔ fieldClass w = 2 :=
  (claims_iff_masked .call w).trans (masked_eq_iff_fieldClass_eq w 2)

@[simp] theorem claims_ldVx (w : Word) : Entry.ldVx.claims w = true ↔ fieldClass w = 6 :=
  (claims_iff_masked .ldVx w).trans (masked_eq_iff_fieldClass_eq w 6)

@[simp] theorem claims_ldI (w : Word) : Entry.ldI.claims w = true ↔ fieldClass w = 0xA :=
  (claims_iff_masked .ldI w).trans (masked_eq_iff_fieldClass_eq w 0xA)

@[simp] theorem claims_drw (w : Word) : Entry.drw.claims w = true ↔ fieldClass w = 0xD :=
  (claims_iff_masked .drw w).trans (masked_eq_iff_fieldClass_eq w 0xD)

/-! ### The dispatch (R97, R98) -/

/-- The entry that claims a word is the one keyed on its class and, for class 0, on the word; so at most one does. -/
theorem claims_iff_dispatchByClass (e : Entry) (w : Word) :
    e.claims w = true ↔ dispatchByClass w = some e := by
  constructor
  · intro h
    cases e with
    | cls => rw [(claims_cls w).mp h]; rfl
    | ret => rw [(claims_ret w).mp h]; rfl
    | call | ldVx | ldI | drw =>
      simp only [claims_call, claims_ldVx, claims_ldI, claims_drw] at h
      simp [dispatchByClass, h]
  · intro h
    simp only [dispatchByClass] at h
    split_ifs at h <;> cases h <;> simp [*]

theorem mem_dispatchTable (e : Entry) : e ∈ dispatchTable := by
  cases e <;> decide

/-- Searching any list of all six entries gives the entry keyed on the class, in whatever order they stand. -/
theorem find?_claims_eq_dispatchByClass {es : List Entry} (hall : ∀ e, e ∈ es) (w : Word) :
    es.find? (fun e => e.claims w) = dispatchByClass w := by
  cases hw : es.find? (fun e => e.claims w) with
  | some e =>
    have hclaims : e.claims w = true := by simpa using List.find?_some hw
    exact ((claims_iff_dispatchByClass e w).mp hclaims).symm
  | none =>
    refine (Option.eq_none_iff_forall_ne_some.mpr fun e he => ?_).symm
    exact List.find?_eq_none.mp hw e (hall e) ((claims_iff_dispatchByClass e w).mpr he)

theorem dispatch_eq_dispatchByClass (w : Word) : dispatch w = dispatchByClass w :=
  find?_claims_eq_dispatchByClass mem_dispatchTable w

/-- Settles O3: each claim is the answer of the dispatch keyed on the class, which is one entry. -/
theorem atMostOneEntryClaimsAWord : Obligations.AtMostOneEntryClaimsAWord := by
  unfold Obligations.AtMostOneEntryClaimsAWord
  refine ⟨fun w e₁ e₂ h₁ h₂ => ?_, fun w es hperm => ?_, fun w => (dispatch_eq_dispatchByClass w).symm⟩
  · rw [claims_iff_dispatchByClass] at h₁ h₂
    exact Option.some.inj (h₁.symm.trans h₂)
  · have hall : ∀ e, e ∈ es := fun e => hperm.mem_iff.mpr (mem_dispatchTable e)
    rw [find?_claims_eq_dispatchByClass hall, dispatch_eq_dispatchByClass]

/-! ### The decoder (R94, R115) -/

/-- A word decodes to what the entry that claims it reads from it. -/
theorem decodeWord_ok_iff (w : Word) (i : Instr) :
    decodeWord w = .ok i ↔ ∃ e : Entry, e.claims w = true ∧ e.instr w = i := by
  simp only [claims_iff_dispatchByClass, decodeWord, dispatch_eq_dispatchByClass]
  cases dispatchByClass w <;> simp

/-- A word is rejected where the dispatch finds no entry. -/
theorem decodeWord_unknown_iff (w : Word) :
    decodeWord w = .error (.unknownInstruction w) ↔ dispatchByClass w = none := by
  simp only [decodeWord, dispatch_eq_dispatchByClass]
  cases dispatchByClass w <;> simp

/-- Decoding the two bytes of a word is decoding the word (20_memory.md R72, R96). -/
theorem decode_bytesOfWord_append {w : Word} {i : Instr} (h : decodeWord w = .ok i) (rest : List Byte) :
    decode (bytesOfWord w ++ rest) = .ok (i, rest) := by
  simp [bytesOfWord, decode, h]

/-- Settles O4: the branches in which the dispatch keyed on the class answers no entry. -/
theorem illegalWordsAreExactlyTheUnclaimed : Obligations.IllegalWordsAreExactlyTheUnclaimed := by
  unfold Obligations.IllegalWordsAreExactlyTheUnclaimed
  intro w
  rw [decodeWord_unknown_iff, dispatchByClass]
  split_ifs <;> simp_all

/-- Settles O5: one word for each row of the table of R92, and one of an illegal class. -/
theorem wordsOfTheEncodingTableDecode : Obligations.WordsOfTheEncodingTableDecode := by
  unfold Obligations.WordsOfTheEncodingTableDecode
  decide

/-! ### The encoder against the decoder (R92, R100) -/

/-- An instruction's word is claimed by the instruction's entry. -/
theorem entry_claims_encode (i : Instr) : i.entry.claims (encode i) = true := by
  cases i with
  | cls => exact Laws.Claimed.cls
  | ret => exact Laws.Claimed.ret
  | call nnn => exact Laws.Claimed.call nnn
  | ldVx x kk => exact Laws.Claimed.ldVx x kk
  | ldI nnn => exact Laws.Claimed.ldI nnn
  | drw x y n => exact Laws.Claimed.drw x y n

/-- The instruction's entry reads every operand back from the instruction's word. -/
theorem entry_instr_encode (i : Instr) : i.entry.instr (encode i) = i := by
  cases i with
  | cls | ret => rfl
  | call nnn => exact congrArg _ (fieldNNN_append 2 nnn)
  | ldVx x kk => exact congrArg₂ _ (fieldX_append 6 x kk) (fieldKK_append 6 x kk)
  | ldI nnn => exact congrArg _ (fieldNNN_append 0xA nnn)
  | drw x y n =>
    simp only [Instr.entry, Entry.instr, Instr.drw.injEq]
    exact ⟨fieldX_append 0xD x (y ++ n), fieldY_append 0xD x y n, fieldN_append 0xD x y n⟩

/-- What an entry reads from a word it claims encodes to that word. -/
theorem encode_instr_of_claims {e : Entry} {w : Word} (h : e.claims w = true) : encode (e.instr w) = w := by
  cases e with
  | cls => exact ((claims_cls w).mp h).symm
  | ret => exact ((claims_ret w).mp h).symm
  | call | ldVx | ldI | drw =>
    simp only [claims_call, claims_ldVx, claims_ldI, claims_drw] at h
    simp [Entry.instr, encode, ← h]

theorem decodeWord_encode (i : Instr) : decodeWord (encode i) = .ok i :=
  (decodeWord_ok_iff _ _).mpr ⟨i.entry, entry_claims_encode i, entry_instr_encode i⟩

/-- Settles O1: the instruction's own entry claims its word and reads its operands back. -/
theorem decodeOfEncodeIsIdentity : Obligations.DecodeOfEncodeIsIdentity := by
  unfold Obligations.DecodeOfEncodeIsIdentity
  exact fun i rest => ⟨decodeWord_encode i, decode_bytesOfWord_append (decodeWord_encode i) rest⟩

/-- Settles O2: the entry that claims the word fixes every bit that it does not read as an operand. -/
theorem encodeOfDecodeIsIdentity : Obligations.EncodeOfDecodeIsIdentity := by
  unfold Obligations.EncodeOfDecodeIsIdentity
  intro w i h
  obtain ⟨e, hclaims, rfl⟩ := (decodeWord_ok_iff w i).mp h
  exact encode_instr_of_claims hclaims

/-! ### Fields and words as numbers (R91, R100) -/

/-- A field of `len` bits from bit `start` on, as quotient and remainder. -/
theorem toNat_extractLsb' (w : Word) (start len : Nat) :
    (w.extractLsb' start len).toNat = w.toNat / 2 ^ start % 2 ^ len := by
  rw [BitVec.extractLsb'_toNat, Nat.shiftRight_eq_div_pow]

theorem toNat_append {m n : Nat} (x : BitVec m) (y : BitVec n) :
    (x ++ y).toNat = x.toNat * 2 ^ n + y.toNat := by
  rw [BitVec.toNat_append, ← Nat.shiftLeft_add_eq_or_of_lt y.isLt, Nat.shiftLeft_eq]

theorem toNat_zext16 (nnn : Addr12) : (Machine.zext16 nnn).toNat = nnn.toNat :=
  BitVec.toNat_setWidth_of_le (by decide)

/-- Settles O6: each field as a quotient and a remainder, and the operands that the claiming entry reads. -/
theorem operandsAreFieldsOfTheWord : Obligations.OperandsAreFieldsOfTheWord := by
  unfold Obligations.OperandsAreFieldsOfTheWord
  refine ⟨fun w => ?_, toNat_zext16, fun w i h => ?_⟩
  · simp only [fieldClass, fieldX, fieldY, fieldN, fieldKK, fieldNNN, toNat_extractLsb']
    have hw := w.isLt
    omega
  · obtain ⟨e, hclaims, rfl⟩ := (decodeWord_ok_iff w i).mp h
    cases e with
    | cls => exact (claims_cls w).mp hclaims
    | ret => exact (claims_ret w).mp hclaims
    | call | ldI => exact rfl
    | ldVx => exact ⟨rfl, rfl⟩
    | drw => exact ⟨rfl, rfl, rfl⟩

/-! ### Assembler lines (R100) -/

/-- A line with an operand that does not fit is refused. -/
theorem assemble_eq_none {l : AsmLine} (h : l.wellFormed = false) : l.assemble = none := by
  simp [AsmLine.assemble, h]

/-- An accepted line of an instruction gives the instruction's word. -/
theorem assemble_eq_encode {l : AsmLine} {i : Instr} (h : l.wellFormed = true) (hi : l.instr? = some i) :
    l.assemble = some (encode i) := by
  cases l with
  | dw => cases hi
  | cls | ret | call | ldVx | ldI | drw => simp [AsmLine.assemble, h, hi]

theorem assemble_dw {word : Nat} (h : word < 0x10000) :
    (AsmLine.dw word).assemble = some (BitVec.ofNat 16 word) := by
  simp [AsmLine.assemble, AsmLine.wellFormed, h]

theorem toNat_encode_call (nnn : Addr12) : (encode (.call nnn)).toNat = 0x2000 + nnn.toNat :=
  toNat_append 2 nnn

theorem toNat_encode_ldI (nnn : Addr12) : (encode (.ldI nnn)).toNat = 0xA000 + nnn.toNat :=
  toNat_append 0xA nnn

theorem toNat_encode_ldVx (x : Nibble) (kk : Byte) :
    (encode (.ldVx x kk)).toNat = 0x6000 + x.toNat * 0x100 + kk.toNat := by
  calc
    (encode (.ldVx x kk)).toNat = 0x6000 + (x ++ kk).toNat := toNat_append 6 (x ++ kk)
    _ = 0x6000 + x.toNat * 0x100 + kk.toNat := by rw [toNat_append]; omega

theorem toNat_encode_drw (x y n : Nibble) :
    (encode (.drw x y n)).toNat = 0xD000 + x.toNat * 0x100 + y.toNat * 0x10 + n.toNat := by
  calc
    (encode (.drw x y n)).toNat = 0xD000 + (x ++ (y ++ n)).toNat := toNat_append 0xD (x ++ (y ++ n))
    _ = 0xD000 + x.toNat * 0x100 + y.toNat * 0x10 + n.toNat := by rw [toNat_append, toNat_append]; omega

theorem toNat_ofNat_of_lt {w n : Nat} (h : n < 2 ^ w) : (BitVec.ofNat w n).toNat = n := by
  rw [BitVec.toNat_ofNat, Nat.mod_eq_of_lt h]

/-- Settles O7: the sums that the words of the encoding column are, for operands that fit. -/
theorem assemblerLinesGiveTheirEncoding : Obligations.AssemblerLinesGiveTheirEncoding := by
  unfold Obligations.AssemblerLinesGiveTheirEncoding
  refine ⟨rfl, rfl, fun nnn => ⟨fun h => ?_, fun h => ?_, fun h => ?_⟩, fun x kk => ⟨fun h => ?_, fun h => ?_⟩,
    fun x y n => ⟨fun h => ?_, fun h => ?_⟩, fun word => ⟨fun h => ?_, fun h => ?_⟩⟩
  · exact ⟨_, assemble_eq_encode (decide_eq_true h) rfl, by rw [toNat_encode_call, toNat_ofNat_of_lt h]⟩
  · exact ⟨_, assemble_eq_encode (decide_eq_true h) rfl, by rw [toNat_encode_ldI, toNat_ofNat_of_lt h]⟩
  · have hfit : ¬ nnn < 0x1000 := Nat.not_lt.mpr h
    exact ⟨assemble_eq_none (decide_eq_false hfit), assemble_eq_none (decide_eq_false hfit)⟩
  · have ⟨hx, hkk⟩ := h
    exact ⟨_, assemble_eq_encode (decide_eq_true h) rfl,
      by rw [toNat_encode_ldVx, toNat_ofNat_of_lt hx, toNat_ofNat_of_lt hkk]⟩
  · exact assemble_eq_none (decide_eq_false h)
  · have ⟨hx, hy, hn⟩ := h
    exact ⟨_, assemble_eq_encode (decide_eq_true h) rfl,
      by rw [toNat_encode_drw, toNat_ofNat_of_lt hx, toNat_ofNat_of_lt hy, toNat_ofNat_of_lt hn]⟩
  · exact assemble_eq_none (decide_eq_false h)
  · exact ⟨_, assemble_dw h, toNat_ofNat_of_lt h⟩
  · exact assemble_eq_none (decide_eq_false (Nat.not_lt.mpr h))

end Sys2Proof

/-! # The dispatch loop and the step (40_core_cycle.md R111, R115) -/

namespace Sys2Proof.Machine

/-- No rule of an instruction declines: what claims answers Claimed-Ok or Claimed-Failed (30_encoding.md R99). -/
theorem ruleOf_ne_declined (i : Instr) (s : State) : ruleOf i s ≠ .declined := by
  obtain ⟨f, h⟩ | ⟨t, h, _⟩ := ruleOf_cases s i <;> simp [h]

/-- Asking the entries of a list in order runs the rule of the first that claims the word. -/
theorem askInOrder_eq_find? (w : Word) (s : State) (es : List Entry) :
    askInOrder w s es = ((es.find? (fun e => e.claims w)).map (fun e => ruleOf (e.instr w) s)).getD .declined := by
  induction es with
  | nil => rfl
  | cons e es ih =>
    cases hclaims : e.claims w with
    | false => simp [askInOrder, ask, hclaims, ih]
    | true =>
      simp only [askInOrder, ask, hclaims, List.find?_cons_of_pos, if_true, Option.map_some, Option.getD_some]
      split
      · next h => exact absurd h (ruleOf_ne_declined _ _)
      · rfl

/-- Asking the table's entries runs the rule of the entry that the dispatch finds, or declines (R115, R116). -/
theorem askInOrder_dispatchTable (w : Word) (s : State) :
    askInOrder w s dispatchTable = ((dispatch w).map (fun e => ruleOf (e.instr w) s)).getD .declined :=
  askInOrder_eq_find? w s dispatchTable

/-- Settles O39: with no entry found both ways end the tick as unknown, else both run that entry's rule. -/
theorem dispatchLoopAgreesWithStep : Obligations.DispatchLoopAgreesWithStep := by
  unfold Obligations.DispatchLoopAgreesWithStep
  intro s w hw
  rw [runDispatchLoop, askInOrder_dispatchTable]
  cases hd : dispatch w with
  | none => simp [step, hw, decodeWord, hd, State.unknown]
  | some e => simp [step, hw, decodeWord, hd, exec_eq]

end Sys2Proof.Machine

/-! # The core cycle: FETCH, DECODE and the two ends of a tick (40_core_cycle.md R110 to R120) -/

namespace Sys2Proof.Machine

/-! ### The step, phase by phase (R111) -/

section Phases

variable {s : State} {w : Word}

theorem step_of_fetchWord_error {f : FaultInfo} (hf : fetchWord s = .error f) : step s = .next (s.fetchFault f) := by
  simp only [step, hf]

theorem step_of_decodeWord_error {e : DecodeError} (hw : fetchWord s = .ok w) (hd : decodeWord w = .error e) :
    step s = .next (s.fetched w).unknown := by
  simp only [step, hw, hd]

theorem step_of_decodeWord_ok {i : Instr} (hw : fetchWord s = .ok w) (hd : decodeWord w = .ok i) :
    step s = exec i (s.fetched w) := by
  simp only [step, hw, hd]

end Phases

/-- Two bytes decode as the word they make does (30_encoding.md R96, 20_memory.md R72). -/
theorem decodeWord_of_decode_two {b0 b1 : Byte} {i : Instr} {rest : List Byte} (h : decode [b0, b1] = .ok (i, rest)) :
    decodeWord (wordOfBytes b0 b1) = .ok i := by
  cases hd : decodeWord (wordOfBytes b0 b1) with
  | error e => simp [decode, hd] at h
  | ok j =>
    simp only [decode, hd, Except.ok.injEq, Prod.mk.injEq] at h
    rw [h.1]

/-- Settles O32: the two bytes are the word fetched, and the word decodes as they do. -/
theorem stepRunsTheDecodedInstruction : Obligations.StepRunsTheDecodedInstruction :=
  fun s _ _ _ hread hdecode => step_of_decodeWord_ok (fetchWord_of_memRead s hread) (decodeWord_of_decode_two hdecode)

/-! ### The ends of a tick (R117, R118) -/

/-- PC at the start of the tick is found again after the fetch advance (R113, 60_exceptions.md R189). -/
@[simp] theorem State.fetched_pc0 (s : State) (w : Word) : (s.fetched w).pc0 = s.pc := BitVec.add_sub_cancel s.pc 2

/-- Everything a tick can come to: a fault in the fetch; a fault after it, with the state as decode left it; or the
completion of a decoded instruction's rule, which keeps lastOpcode. -/
theorem tick_cases (s : State) :
    (∃ f, fetchWord s = .error f ∧ s.tick = s.fetchFault f) ∨
    (∃ w f, fetchWord s = .ok w ∧ s.tick = (s.fetched w).takeFault ((s.fetched w).executeRecord f)) ∨
    ∃ w i, ∃ t : State, fetchWord s = .ok w ∧ decodeWord w = .ok i ∧ t.lastOpcode = w ∧ s.tick = t.complete := by
  obtain ⟨f, hf, h⟩ | ⟨w, _, hw, _, h⟩ | ⟨w, i, hw, hd, h⟩ := step_cases s <;> rw [tick_eq_of_step h]
  · exact .inl ⟨f, hf, rfl⟩
  · exact .inr (.inl ⟨w, .unknownInstruction w, hw, rfl⟩)
  · obtain ⟨f, hrule⟩ | ⟨t, hrule, _, _, _, hlast, _⟩ := ruleOf_cases (s.fetched w) i <;> rw [hrule]
    · exact .inr (.inl ⟨w, f, hw, rfl⟩)
    · exact .inr (.inr ⟨w, i, t, hw, hd, hlast, rfl⟩)

/-- Settles O38: each step answers the state after the tick, and both ends of a tick leave a result. -/
theorem everyTickAnswersAResult : Obligations.EveryTickAnswersAResult := by
  unfold Obligations.EveryTickAnswersAResult
  intro s
  obtain ⟨_, hres, _⟩ | ⟨r, _, hres, _⟩ := tick_completed_or_faulted s
  · exact ⟨s.tick, .ok, step_eq_next_tick s, hres⟩
  · exact ⟨s.tick, .fault r, step_eq_next_tick s, hres⟩

/-- Settles O36: a fault ends the tick in the state before it or, after the fetch, in the state decode left. -/
theorem faultingTickKeepsTheState : Obligations.FaultingTickKeepsTheState := by
  unfold Obligations.FaultingTickKeepsTheState
  intro s t r hstep hres
  rw [← tick_eq_of_step hstep] at hres ⊢
  obtain ⟨f, _, h⟩ | ⟨w, f, hw, h⟩ | ⟨w, i, u, _, _, _, h⟩ := tick_cases s <;> rw [h] at hres ⊢ <;> cases hres
  · exact ⟨⟨rfl, rfl, rfl⟩, ⟨rfl, rfl, rfl, rfl, rfl, rfl, rfl⟩, rfl, .inl ⟨rfl, rfl, rfl, rfl⟩⟩
  · exact ⟨⟨rfl, rfl, rfl⟩, ⟨rfl, rfl, rfl, rfl, rfl, rfl, rfl⟩, State.fetched_pc0 s w, .inr ⟨rfl, rfl, rfl, hw⟩⟩

/-- Settles O37: the only end without a fault record is that of a decoded word. -/
theorem completedTickCountsOne : Obligations.CompletedTickCountsOne := by
  unfold Obligations.CompletedTickCountsOne
  intro s t hstep hres
  rw [← tick_eq_of_step hstep] at hres ⊢
  constructor
  · obtain hdone | ⟨r, _, hfault, _⟩ := tick_completed_or_faulted s
    · exact hdone
    · rw [hfault] at hres
      cases hres
  · obtain ⟨f, _, h⟩ | ⟨w, f, _, h⟩ | ⟨w, i, u, hw, hd, hlast, h⟩ := tick_cases s <;> rw [h] at hres ⊢
    · cases hres
    · cases hres
    · exact ⟨w, i, hw, hd, hlast⟩

/-! ### Faults of the fetch (R112) -/

/-- A fetch that faults ends the tick with opcode 0, not valid, and changes nothing but the model's own fields. -/
theorem step_fetchFault {s : State} {f : FaultInfo} (h : fetchWord s = .error f) :
    ∃ t, step s = .next t ∧ TickFaulted s t (faultRecord f 0 false s.pc) ∧ SameObservable s t ∧ t.dt = s.dt :=
  ⟨_, step_of_fetchWord_error h, ⟨rfl, rfl, rfl⟩, ⟨rfl, rfl, rfl, rfl, rfl, rfl, rfl, rfl, rfl⟩, rfl⟩

/-- The record of a fetch from an unmapped PC (60_exceptions.md R189). -/
theorem faultRecord_addressInvalid (pc : Word) :
    faultRecord (.addressInvalid pc.toNat) 0 false pc = ⟨1, .addressInvalid, pc, 0, 0, 0, false, pc⟩ := by
  simp [faultRecord, FaultInfo.kind, FaultKind.code, FaultInfo.addr, FaultInfo.requested, FaultInfo.delivered]

/-- At the last byte of either region the fetch reads one byte of two. -/
theorem fetchWord_region_end {s : State} (h : s.pc = 0x0FFF ∨ s.pc = 0xFFFF) :
    fetchWord s = .error (.shortRead s.pc.toNat 2 1) := by
  rcases h with h | h
  · rw [fetchWord_ram_end s (by rw [h]; rfl), h]
    rfl
  · rw [fetchWord_fb_end s (by rw [h]; rfl), h]
    rfl

/-- The record of a fetch that a region's end cuts (60_exceptions.md R189). -/
theorem faultRecord_shortRead (pc : Word) :
    faultRecord (.shortRead pc.toNat 2 1) 0 false pc = ⟨7, .shortRead, pc, 2, 1, 0, false, pc⟩ := by
  simp [faultRecord, FaultInfo.kind, FaultKind.code, FaultInfo.addr, FaultInfo.requested, FaultInfo.delivered]

/-- Settles O34: PC unmapped, PC at a region's last byte, and two bytes of one region. -/
theorem fetchFaultsChangeNothing : Obligations.FetchFaultsChangeNothing := by
  unfold Obligations.FetchFaultsChangeNothing
  intro s
  refine ⟨fun ⟨hlo, hhi⟩ => ?_, fun hend => ?_, fun hwhole => ?_⟩
  · rw [← faultRecord_addressInvalid]
    exact step_fetchFault (fetchWord_unmapped s hlo hhi)
  · rw [← faultRecord_shortRead]
    exact step_fetchFault (fetchWord_region_end hend)
  · rcases hwhole with hram | ⟨hlo, hhi⟩
    · exact ⟨_, fetchWord_ram s (by omega)⟩
    · exact ⟨_, fetchWord_fb s hlo (by omega)⟩

end Sys2Proof.Machine

/-! # A tick against DT and the model's own fields: it commutes with replacing them (40_core_cycle.md R120) -/

namespace Sys2Proof.Machine

/-! ### Replacing what no tick reads -/

/-- The state with DT and the model's own fields taken from another: what `SameObservable` leaves open. -/
def State.withHiddenOf (s h : State) : State := { s with dt := h.dt, result := h.result, firstFault := h.firstFault }

/-- Two states that agree on everything observable differ in the hidden fields alone. -/
theorem eq_withHiddenOf_of_sameObservable {s s' : State} (hsame : SameObservable s s') : s' = s.withHiddenOf s' := by
  obtain ⟨hv, hindex, hpc, hstack, hticks, hlast, hdirty, hram, hfb⟩ := hsame
  simp only [State.withHiddenOf, ← hv, ← hindex, ← hpc, ← hstack, ← hticks, ← hlast, ← hdirty, ← hram, ← hfb]

theorem sameObservable_withHiddenOf (s h : State) : SameObservable s (s.withHiddenOf h) :=
  ⟨rfl, rfl, rfl, rfl, rfl, rfl, rfl, rfl, rfl⟩

/-- The answer of a rule with the state it carries replaced. -/
def DispatchResult.mapState (g : State → State) : DispatchResult → DispatchResult
  | .declined => .declined
  | .claimedOk s => .claimedOk (g s)
  | .claimedFailed f s => .claimedFailed f (g s)

/-- Parts of a rule that commute with a replacement do so one after the other. -/
theorem DispatchResult.andThen_mapState {g : State → State} {k : State → DispatchResult} (r : DispatchResult)
    (hk : ∀ t, k (g t) = (k t).mapState g) : (r.mapState g).andThen k = (r.andThen k).mapState g := by
  cases r with
  | declined | claimedFailed => rfl
  | claimedOk t => exact hk t

section Commute

variable (s h : State)

/-! ### Reads -/

theorem memRead_withHiddenOf (a n : Nat) : memRead (s.withHiddenOf h) a n = memRead s a n := by
  have hdev : ∀ d, (s.withHiddenOf h).device d = s.device d := fun d => by cases d <;> rfl
  simp only [memRead, routerReadRange, hdev]

theorem fetchWord_withHiddenOf : fetchWord (s.withHiddenOf h) = fetchWord s := fetchWord_congr rfl rfl rfl

/-! ### Draws -/

theorem drawPixel_withHiddenOf (px py : Nat) (bit : Bool) :
    drawPixel px py bit (s.withHiddenOf h) = (drawPixel px py bit s).mapState (·.withHiddenOf h) := by
  by_cases hdraw : (onScreen px py && bit) = true
  · have hp : onScreen px py = true := (Bool.and_eq_true_iff.mp hdraw).1
    have hpixel : (s.withHiddenOf h).pixel px py = s.pixel px py := rfl
    simp only [drawPixel, hdraw, if_true, memRead1_pixel _ hp, memWrite1_pixel _ hp, hpixel]
    split <;> rfl
  · simp only [drawPixel, hdraw, if_false, Bool.false_eq_true]
    rfl

theorem drawBits_withHiddenOf (px py : Nat) (bits : List Bool) :
    drawBits px py bits (s.withHiddenOf h) = (drawBits px py bits s).mapState (·.withHiddenOf h) := by
  induction bits generalizing px s with
  | nil => rfl
  | cons b bs ih =>
    rw [drawBits, drawBits, drawPixel_withHiddenOf]
    exact DispatchResult.andThen_mapState _ (ih · (px + 1))

theorem drawRows_withHiddenOf (px py : Nat) (rows : List Byte) :
    drawRows px py rows (s.withHiddenOf h) = (drawRows px py rows s).mapState (·.withHiddenOf h) := by
  induction rows generalizing py s with
  | nil => rfl
  | cons row rows ih =>
    rw [drawRows, drawRows, drawBits_withHiddenOf]
    exact DispatchResult.andThen_mapState _ (ih · (py + 1))

/-! ### Rules -/

theorem clsRule_withHiddenOf : clsRule (s.withHiddenOf h) = (clsRule s).mapState (·.withHiddenOf h) := by
  rw [clsRule_eq, clsRule_eq]
  rfl

theorem retRule_withHiddenOf : retRule (s.withHiddenOf h) = (retRule s).mapState (·.withHiddenOf h) := by
  rcases stack_cases s.stack with hs | ⟨ws, a, hs⟩
  · have hs' : (s.withHiddenOf h).stack = [] := hs
    simp only [retRule, State.pop_empty hs, State.pop_empty hs']
    rfl
  · have hs' : (s.withHiddenOf h).stack = ws ++ [a] := hs
    simp only [retRule, State.pop_top hs, State.pop_top hs']
    rfl

theorem callRule_withHiddenOf (nnn : Addr12) :
    callRule nnn (s.withHiddenOf h) = (callRule nnn s).mapState (·.withHiddenOf h) := by
  rcases Nat.lt_or_ge s.stack.length stackDepth with hs | hs
  · have hs' : (s.withHiddenOf h).stack.length < stackDepth := hs
    simp only [callRule, State.push_room hs, State.push_room hs']
    rfl
  · have hs' : stackDepth ≤ (s.withHiddenOf h).stack.length := hs
    simp only [callRule, State.push_full hs, State.push_full hs']
    rfl

theorem drwRule_withHiddenOf (x y n : Nibble) :
    drwRule x y n (s.withHiddenOf h) = (drwRule x y n s).mapState (·.withHiddenOf h) := by
  have hread : memRead (s.withHiddenOf h) (s.withHiddenOf h).index.toNat n.toNat = memRead s s.index.toNat n.toNat :=
    memRead_withHiddenOf s h _ _
  rw [drwRule, drwRule, hread]
  cases memRead s s.index.toNat n.toNat with
  | error f => rfl
  | ok sprite =>
    change (drawRows (s.reg x).toNat (s.reg y).toNat sprite (s.clearCollision.withHiddenOf h)).andThen _ = _
    rw [drawRows_withHiddenOf]
    exact DispatchResult.andThen_mapState _ fun _ => rfl

/-- No rule reads or writes a hidden field. -/
theorem ruleOf_withHiddenOf (i : Instr) :
    ruleOf i (s.withHiddenOf h) = (ruleOf i s).mapState (·.withHiddenOf h) := by
  cases i with
  | cls => exact clsRule_withHiddenOf s h
  | ret => exact retRule_withHiddenOf s h
  | call nnn => exact callRule_withHiddenOf s h nnn
  | ldVx | ldI => rfl
  | drw x y n => exact drwRule_withHiddenOf s h x y n

/-! ### The end of the tick, which writes `result` and `firstFault` -/

/-- Taking a fault writes the result from the record alone. -/
theorem sameObservable_takeFault (r : FaultRecord) :
    SameObservable (s.takeFault r) ((s.withHiddenOf h).takeFault r) ∧
      ((s.withHiddenOf h).takeFault r).result = (s.takeFault r).result :=
  ⟨sameObservable_withHiddenOf s h, rfl⟩

theorem sameObservable_endTick (r : DispatchResult) :
    SameObservable (endTick s r) (endTick (s.withHiddenOf h) (r.mapState (·.withHiddenOf h))) ∧
      (endTick (s.withHiddenOf h) (r.mapState (·.withHiddenOf h))).result = (endTick s r).result := by
  cases r with
  | declined => exact sameObservable_takeFault s h _
  | claimedOk t => exact ⟨⟨rfl, rfl, rfl, rfl, rfl, rfl, rfl, rfl, rfl⟩, rfl⟩
  | claimedFailed f t => exact sameObservable_takeFault t h _

end Commute

/-- Settles O44: both states fetch and decode the same word and run the same rule, which carries the hidden fields
along, and the end of the tick takes neither its result nor an observable field from them. -/
theorem tickDependsOnObservableStateOnly : Obligations.TickDependsOnObservableStateOnly := by
  unfold Obligations.TickDependsOnObservableStateOnly
  intro s s' t hsame hstep
  rw [eq_withHiddenOf_of_sameObservable hsame]
  have hfetch := fetchWord_withHiddenOf s s'
  obtain ⟨f, hf, h⟩ | ⟨w, e, hw, hd, h⟩ | ⟨w, i, hw, hd, h⟩ := step_cases s <;> rw [h] at hstep <;> cases hstep
  · exact ⟨_, step_of_fetchWord_error (hfetch.trans hf), sameObservable_takeFault s s' _⟩
  · exact ⟨_, step_of_decodeWord_error (hfetch.trans hw) hd, sameObservable_endTick (s.fetched w) s' .declined⟩
  · have hend := sameObservable_endTick (s.fetched w) s' (ruleOf i (s.fetched w))
    rw [← ruleOf_withHiddenOf] at hend
    exact ⟨_, (step_of_decodeWord_ok (hfetch.trans hw) hd).trans (exec_eq _ i), hend⟩

end Sys2Proof.Machine

/-! # The display: the pixels' addresses, CLS and DRW (41_display.md R130 to R134) -/

namespace Sys2Proof.Machine

/-! ### Pixels and framebuffer bytes (R132) -/

theorem pixelAddr_eq (px py : Nat) : pixelAddr px py = 0xF800 + 64 * py + px := by
  simp only [pixelAddr, fbBase, fbWidth, Nat.mul_comm py]

/-- Settles O18: a framebuffer offset below 64 * 32 is 64y + x for one column x and one row y. -/
theorem pixelsAreTheFramebufferBytes : Obligations.PixelsAreTheFramebufferBytes := by
  unfold Obligations.PixelsAreTheFramebufferBytes
  refine ⟨fun px py hx hy => ?_, fun px py qx qy hx _ hx' _ h => ?_, fun a hlo hhi => ?_⟩
  · have haddr := pixelAddr_eq px py
    exact ⟨haddr, by omega, by omega, fun s => memRead1_pixel s (onScreen_iff.mpr ⟨hx, hy⟩)⟩
  · rw [pixelAddr_eq, pixelAddr_eq] at h
    omega
  · refine ⟨(a - 0xF800) % 64, (a - 0xF800) / 64, by omega, by omega, ?_⟩
    rw [pixelAddr_eq]
    omega

/-- A byte outside the framebuffer reads the same in states with the same RAM. -/
theorem memRead1_outsideFb {s t : State} {a : Nat} (hram : t.ram = s.ram) (ha : ¬ (0xF800 ≤ a ∧ a < 0x10000)) :
    memRead1 t a = memRead1 s a := by
  by_cases h : a < 0x1000
  · rw [memRead1_ram t h, memRead1_ram s h, hram]
  · rw [memRead1_unmapped t (by omega) ha, memRead1_unmapped s (by omega) ha]

/-- Where every cell is 0 or 1, so is every pixel, listed or not (20_memory.md R81). -/
theorem State.PixelsBinary.pixel {s : State} (h : s.PixelsBinary) (px py : Nat) :
    s.pixel px py = 0 ∨ s.pixel px py = 1 := by
  rw [State.pixel, byteOf]
  cases hl : lookup s.fb (py * fbWidth + px) with
  | none => exact .inl rfl
  | some b => exact h _ (mem_of_lookup hl)

/-! ### CLS (R130) -/

/-- CLS clears the framebuffer and completes. -/
theorem exec_cls (s : State) :
    exec .cls s =
      .next ((s.setDevice .fb (clearedFb s.fb)).setDirty (s.dirty || clearSetsDirty)).complete := by
  rw [exec_eq, ruleOf, clsRule_eq, endTick_claimedOk]

/-- Settles O27: the write of CLS covers the framebuffer's range with zeros, and CLEAR_SETS_DIRTY is off. -/
theorem clsZeroesTheFramebuffer : Obligations.ClsZeroesTheFramebuffer := by
  unfold Obligations.ClsZeroesTheFramebuffer
  intro s
  refine ⟨_, exec_cls s, fun a => ?_, fun _ => rfl, rfl, rfl, rfl, rfl, rfl, Bool.or_false _, rfl, rfl, rfl⟩
  by_cases ha : 0xF800 ≤ a ∧ a < 0x10000
  · rw [if_pos ha, memRead1_fb _ ha.1 ha.2]
    exact congrArg Except.ok (byteOf_clearedFb s.fb (by omega))
  · rw [if_neg ha]
    exact memRead1_outsideFb rfl ha

/-! ### DRW: the end of its tick (R131) -/

/-- DRW whose sprite cannot be read faults in the state decode left. -/
theorem exec_drw_of_memRead_error {x y n : Nibble} {s : State} {f : FaultInfo}
    (h : memRead s s.index.toNat n.toNat = .error f) :
    exec (.drw x y n) s = .next (s.takeFault (s.executeRecord f)) := by
  rw [exec_eq]
  simp only [ruleOf, drwRule, h, endTick_claimedFailed]

/-- DRW whose sprite can be read draws it from the state with VF cleared, sets dirty and completes. -/
theorem exec_drw_of_memRead_ok {x y n : Nibble} {s : State} {sprite : List Byte}
    (h : memRead s s.index.toNat n.toNat = .ok sprite) :
    ∃ t, Drawn (spriteBit sprite (s.reg x).toNat (s.reg y).toNat) s.clearCollision t ∧
      exec (.drw x y n) s = .next (t.setDirty true).complete := by
  obtain ⟨f, hread, _⟩ | ⟨sprite', t, hread, hd, hrule⟩ := drwRule_cases s x y n <;> rw [h] at hread <;> cases hread
  refine ⟨t, hd, ?_⟩
  rw [exec_eq]
  simp only [ruleOf, hrule, endTick_claimedOk]

/-- Settles O29: the draw completes exactly when its read of the sprite succeeds. -/
theorem drwCompletesExactlyWhenTheSpriteFits : Obligations.DrwCompletesExactlyWhenTheSpriteFits := by
  unfold Obligations.DrwCompletesExactlyWhenTheSpriteFits
  intro x y n s
  have hindex := s.index.isLt
  have hfits := memRead_ok_iff s s.index.toNat n.toNat
  cases hread : memRead s s.index.toNat n.toNat with
  | error f =>
    refine ⟨fun ⟨t, hexec, _, hres, _⟩ => ?_, fun hfit => ?_⟩
    · rw [exec_drw_of_memRead_error hread] at hexec
      cases hexec
      cases hres
    · obtain ⟨bs, hok⟩ := hfits.mpr (by omega)
      rw [hread] at hok
      cases hok
  | ok sprite =>
    obtain ⟨t, hd, hexec⟩ := exec_drw_of_memRead_ok (x := x) (y := y) hread
    have hfit := hfits.mp ⟨sprite, hread⟩
    exact ⟨fun _ => by omega, fun _ => ⟨_, hexec, congrArg (· + 1) hd.ticks, rfl, hd.firstFault⟩⟩

/-- The record of a ShortRead at I in the execution of an instruction (60_exceptions.md R189). -/
theorem executeRecord_shortRead_index (s : State) (n m : Nat) :
    s.executeRecord (.shortRead s.index.toNat n m) =
      ⟨7, .shortRead, s.index, n, m, s.lastOpcode, true, s.pc - 2⟩ := by
  simp [State.executeRecord, State.pc0, faultRecord, FaultInfo.kind, FaultKind.code, FaultInfo.addr,
    FaultInfo.requested, FaultInfo.delivered]

/-- Settles O30: the read of the sprite is cut at the end of RAM, before the draw writes anything. -/
theorem drwPastTheEndOfRamIsAShortRead : Obligations.DrwPastTheEndOfRamIsAShortRead := by
  unfold Obligations.DrwPastTheEndOfRamIsAShortRead
  intro x y n s hram hpast
  have hread := (memRead_ram s hram n.toNat).trans (if_neg (by omega))
  rw [← executeRecord_shortRead_index]
  exact ⟨_, exec_drw_of_memRead_error hread, ⟨rfl, rfl, rfl⟩, rfl, rfl, rfl, rfl, rfl, rfl, rfl, rfl, rfl⟩

/-! ### DRW: the pixels and VF (R133) -/

section Draw

variable {cover : Nat → Nat → Bool} {s t : State}

/-- The pixels that a draw from the state with VF cleared leaves, on the screen's coordinates as numbers. -/
theorem Drawn.pixel_of_lt (hd : Drawn cover s.clearCollision t) {px py : Nat} (hx : px < 64) (hy : py < 32) :
    t.pixel px py = pixelAfter (cover px py) (s.pixel px py) :=
  hd.pixel px py (onScreen_iff.mpr ⟨hx, hy⟩)

/-- Without a collision VF stays cleared. -/
theorem Drawn.vf_of_not_collides (hd : Drawn cover s.clearCollision t) (h : ¬ s.Collides cover) : t.reg vf = 0 :=
  (hd.miss h).trans (State.reg_setReg_same s vf 0)

/-- VF tells a collision from none. -/
theorem Drawn.vf_eq_one_iff (hd : Drawn cover s.clearCollision t) : t.reg vf = 1 ↔ s.Collides cover := by
  refine ⟨fun h => ?_, hd.hit⟩
  by_contra hmiss
  rw [hd.vf_of_not_collides hmiss] at h
  exact absurd h (by decide)

/-- Every register but VF is as before the draw. -/
theorem Drawn.reg_of_ne_vf (hd : Drawn cover s.clearCollision t) {z : Nibble} (hz : z ≠ vf) : t.reg z = s.reg z :=
  (hd.reg z hz).trans (State.reg_setReg_of_ne s hz 0)

end Draw

/-- Settles O28: what `Drawn` says of the draw from the state with VF cleared, read at each pixel's address. -/
theorem drwXorsTheSpriteOntoTheFramebuffer : Obligations.DrwXorsTheSpriteOntoTheFramebuffer := by
  unfold Obligations.DrwXorsTheSpriteOntoTheFramebuffer
  intro x y n s sprite hread
  obtain ⟨t, hd, hexec⟩ := exec_drw_of_memRead_ok (x := x) (y := y) hread
  refine ⟨_, hexec, fun px py hx hy => ?_, fun a ha => memRead1_outsideFb hd.ram ha, hd.vf_eq_one_iff.mpr,
    hd.vf_of_not_collides, fun z => hd.reg_of_ne_vf, rfl, hd.index, hd.pc, hd.stack, hd.dt, hd.lastOpcode,
    congrArg (· + 1) hd.ticks, rfl, hd.firstFault⟩
  rw [← pixelAddr_eq, memRead1_pixel _ (onScreen_iff.mpr ⟨hx, hy⟩)]
  exact congrArg Except.ok (hd.pixel_of_lt hx hy)

/-! ### Drawing twice (R133, 95_test_vectors.md E5) -/

/-- On the bytes 0 and 1 the table of R133 undoes itself. -/
theorem pixelAfter_pixelAfter {p : Byte} (hp : p = 0 ∨ p = 1) (bit : Bool) :
    pixelAfter bit (pixelAfter bit p) = p := by
  rcases hp with rfl | rfl <;> cases bit <;> rfl

/-- On the bytes 0 and 1, under a 1 bit exactly an unlit pixel is lit. -/
theorem pixelAfter_true_eq_one_iff {p : Byte} (hp : p = 0 ∨ p = 1) : pixelAfter true p = 1 ↔ p = 0 := by
  rcases hp with rfl | rfl <;> decide

/-- A second draw of the same bits hits a lit pixel where the first lit an unlit one. -/
theorem Drawn.collides_again_iff {cover : Nat → Nat → Bool} {s t : State} (hd : Drawn cover s.clearCollision t)
    (hbin : s.PixelsBinary) :
    t.Collides cover ↔ ∃ px py, px < 64 ∧ py < 32 ∧ cover px py = true ∧ s.pixel px py = 0 := by
  simp only [State.Collides, onScreen_iff, and_assoc]
  refine exists_congr fun px => exists_congr fun py => and_congr_right fun hx => and_congr_right fun hy =>
    and_congr_right fun hcover => ?_
  rw [hd.pixel_of_lt hx hy, hcover, pixelAfter_true_eq_one_iff (hbin.pixel px py)]

/-- A range read that starts in RAM depends on RAM only. -/
theorem memRead_congr_ram {s t : State} (hram : t.ram = s.ram) {a : Nat} (ha : a < 0x1000) (n : Nat) :
    memRead t a n = memRead s a n := by
  rw [memRead_ram t ha, memRead_ram s ha, hram]

/-- Settles O31: the first draw leaves RAM, I, V[X] and V[Y], so the second draws the same bits from the pixels the
first left. -/
theorem drawingTwiceRestoresEveryPixel : Obligations.DrawingTwiceRestoresEveryPixel := by
  unfold Obligations.DrawingTwiceRestoresEveryPixel
  intro x y n s sprite hinv hx hy hread
  obtain ⟨_, hbin, _, _, _, hindex⟩ := hinv
  obtain ⟨t, hd, hexec⟩ := exec_drw_of_memRead_ok (x := x) (y := y) hread
  have hread' : memRead t t.index.toNat n.toNat = .ok sprite := by
    have hI : t.index = s.index := hd.index
    rwa [hI, memRead_congr_ram hd.ram hindex]
  obtain ⟨u, hd', hexec'⟩ := exec_drw_of_memRead_ok (s := (t.setDirty true).complete) (x := x) (y := y) hread'
  simp only [State.complete_reg, State.setDirty_reg, hd.reg_of_ne_vf hx, hd.reg_of_ne_vf hy] at hd'
  refine ⟨_, _, hexec, hexec', rfl, rfl, fun px py hpx hpy => ?_, ?_⟩
  · have hfirst := hd.pixel_of_lt hpx hpy
    have hsecond := hd'.pixel_of_lt hpx hpy
    calc
      u.pixel px py
      _ = pixelAfter _ (t.pixel px py) := hsecond
      _ = pixelAfter _ (pixelAfter _ (s.pixel px py)) := by rw [hfirst]
      _ = s.pixel px py := pixelAfter_pixelAfter (hbin.pixel px py) _
  · exact hd'.vf_eq_one_iff.trans (hd.collides_again_iff hbin)

end Sys2Proof.Machine

/-! # The flow: CALL with room on the stack and RET with a top (42_flow.md R150, R151) -/

namespace Sys2Proof.Machine

/-- CALL below the stack's capacity pushes PC, jumps and completes. -/
theorem exec_call_of_room {nnn : Addr12} {s : State} (h : s.stack.length < stackDepth) :
    exec (.call nnn) s = .next ((s.setStack (s.stack ++ [s.pc])).setPc (zext16 nnn)).complete := by
  rw [exec_eq]
  simp only [ruleOf, callRule, State.push_room h, endTick_claimedOk]

/-- RET with a top on the stack moves it to PC and completes. -/
theorem exec_ret_of_top {s : State} {ws : List Word} {w : Word} (h : s.stack = ws ++ [w]) :
    exec .ret s = .next ((s.setStack ws).setPc w).complete := by
  rw [exec_eq]
  simp only [ruleOf, retRule, State.pop_top h, endTick_claimedOk]

/-- Settles O23: the call writes the stack and PC only, and the widened operand keeps its value. -/
theorem callPushesPcAndJumps : Obligations.CallPushesPcAndJumps := by
  unfold Obligations.CallPushesPcAndJumps
  intro nnn s hroom
  exact ⟨_, exec_call_of_room hroom, rfl, toNat_zext16 nnn, fun _ => rfl, rfl, rfl, rfl, rfl,
    memRead1_congr rfl rfl, rfl, rfl, rfl⟩

/-- Settles O25: the return writes the stack and PC only. -/
theorem retPopsTheStackIntoPc : Obligations.RetPopsTheStackIntoPc := by
  unfold Obligations.RetPopsTheStackIntoPc
  intro s ws w htop
  exact ⟨_, exec_ret_of_top htop, rfl, rfl, fun _ => rfl, rfl, rfl, rfl, rfl, memRead1_congr rfl rfl, rfl, rfl, rfl⟩

end Sys2Proof.Machine

/-! # The loads: LD VX and LD I (43_loads.md R170, R171) -/

namespace Sys2Proof.Machine

/-- LD VX writes its byte to V[X] and completes. -/
theorem exec_ldVx (x : Nibble) (kk : Byte) (s : State) : exec (.ldVx x kk) s = .next (s.setReg x kk).complete := by
  rw [exec_eq, ruleOf, ldVxRule, endTick_claimedOk]

/-- LD I writes its widened operand to I and completes. -/
theorem exec_ldI (nnn : Addr12) (s : State) : exec (.ldI nnn) s = .next (s.setIndex (zext16 nnn)).complete := by
  rw [exec_eq, ruleOf, ldIRule, endTick_claimedOk]

/-- Settles O21: the load writes V[X] only, whichever register X names. -/
theorem loadVxSetsOneRegister : Obligations.LoadVxSetsOneRegister := by
  unfold Obligations.LoadVxSetsOneRegister
  intro x kk s
  exact ⟨_, exec_ldVx x kk s, fun y => s.reg_setReg x y kk, rfl, rfl, rfl, rfl, rfl, rfl,
    memRead1_congr rfl rfl, rfl, rfl, rfl⟩

/-- Settles O22: the load writes I only, and the widened operand keeps its value. -/
theorem loadISetsTheIndexRegister : Obligations.LoadISetsTheIndexRegister := by
  unfold Obligations.LoadISetsTheIndexRegister
  intro nnn s
  exact ⟨_, exec_ldI nnn s, toNat_zext16 nnn, fun _ => rfl, rfl, rfl, rfl, rfl, rfl,
    memRead1_congr rfl rfl, rfl, rfl, rfl⟩

end Sys2Proof.Machine

/-! # The router under any table: AddressOutOfRange (20_memory.md R60 to R68, 60_exceptions.md R182) -/

namespace Sys2Proof.Machine

/-! ### Accesses that translate past the device -/

section PastTheDevice

variable {rt : RegionTable} {a : Nat} {r : Region} (s : State)

theorem routerRead_past_device (h : regionOf rt a = some r) (hpast : capacity r.mapping.dev ≤ r.offset a) :
    routerRead rt s a = .error (.addressOutOfRange a) := by
  simp only [routerRead, h, devRead, if_pos hpast]

theorem routerWrite_past_device (h : regionOf rt a = some r) (hpast : capacity r.mapping.dev ≤ r.offset a)
    (b : Byte) : routerWrite rt s a b = .error (.addressOutOfRange a) := by
  simp only [routerWrite, h, devWrite, if_pos hpast]

theorem routerReadRange_past_device {n : Nat} (h : regionOf rt a = some r)
    (hpast : capacity r.mapping.dev < r.offset a + min n (r.remaining a)) :
    routerReadRange rt s a n = .error (.addressOutOfRange a) := by
  simp only [routerReadRange, h, devReadRange, if_pos hpast]

end PastTheDevice

/-! ### Tables that translate inside their devices -/

/-- Every mapped address translates to an offset below its device's capacity (R63). -/
def RegionTable.TranslatesInside (rt : RegionTable) : Prop :=
  ∀ a r, regionOf rt a = some r → r.offset a < capacity r.mapping.dev

/-- A registration that succeeds was of whole units, inside its device and over unmapped addresses only, and it added its
region to the table (R58 to R60). -/
theorem registerRegion_ok_inv {rt rt' : RegionTable} {start size : Nat} {d : DeviceId} {devOffset : Nat}
    (h : registerRegion rt start size d devOffset = .ok rt') :
    start % 0x100 = 0 ∧ size % 0x100 = 0 ∧ devOffset + size ≤ capacity d ∧
      (∀ a, start ≤ a → a < start + size → regionOf rt a = none) ∧
      rt' = rt ++ [⟨start, align, ⟨d, size, devOffset⟩⟩] := by
  have hstart : start % 0x100 = 0 := by
    by_contra hmis
    rw [registerRegion_misaligned ⟨fun h0 => hmis (by rw [h0]), hmis⟩] at h
    cases h
  have hpassed : ¬ (size = 0 ∨ size % 0x100 ≠ 0 ∨ capacity d < devOffset + size ∨
      ∃ a, start ≤ a ∧ a < start + size ∧ (regionOf rt a).isSome = true) := by
    intro hbad
    obtain ⟨e, he, _⟩ := registerRegion_refused hstart hbad
    rw [h] at he
    cases he
  simp only [not_or, not_not, not_lt, not_exists, not_and, Option.not_isSome_iff_eq_none] at hpassed
  obtain ⟨hzero, hsize, hcap, hfree⟩ := hpassed
  rw [registerRegion_ok hstart hzero hsize hcap hfree] at h
  cases h
  exact ⟨hstart, hsize, hcap, hfree, rfl⟩

/-- Registration keeps every translation inside its device: the added region's span fits its device (R60). -/
theorem translatesInside_of_registerRegion {rt rt' : RegionTable} {start size : Nat} {d : DeviceId}
    {devOffset : Nat} (hrt : rt.TranslatesInside) (h : registerRegion rt start size d devOffset = .ok rt') :
    rt'.TranslatesInside := by
  obtain ⟨hstart, hsize, hcap, hfree, rfl⟩ := registerRegion_ok_inv h
  intro a r hr
  rw [regionOf_append_region hstart hsize hfree] at hr
  split at hr
  next hspan =>
    cases hr
    simp only [Region.offset] at hspan ⊢
    omega
  next => exact hrt a r hr

theorem fixedMap_translatesInside : fixedMap.TranslatesInside := by
  intro a r h
  rw [regionOf_fixedMap] at h
  split_ifs at h with hram hfb <;> cases h
  · simpa using hram
  · rw [fbRegion_offset, fbRegion_dev, capacity_fb]
    omega

/-- Settles O12: the device refuses such an offset, and registration checks that none can come up. -/
theorem addressOutOfRangeNeedsAnUnregisteredTable : Obligations.AddressOutOfRangeNeedsAnUnregisteredTable := by
  unfold Obligations.AddressOutOfRangeNeedsAnUnregisteredTable
  refine ⟨fun rt s a r hr => ⟨fun hpast => ⟨?_, ?_⟩, fun n => ?_⟩, fun rt rt' start size d devOffset hrt => ?_,
    fixedMap_translatesInside⟩
  · exact routerRead_past_device s hr hpast
  · exact routerWrite_past_device s hr hpast
  · exact routerReadRange_past_device s hr
  · exact translatesInside_of_registerRegion hrt

end Sys2Proof.Machine

/-! # The faults: which are raised, where, and with which record (60_exceptions.md R180 to R189) -/

namespace Sys2Proof.Machine

/-! ### Faults of an instruction's rule (R188) -/

/-- Everything a rule's failure can be: RET's underflow, CALL's overflow, or DRW's failed read of its sprite. -/
theorem ruleOf_failed_cases {i : Instr} {s t : State} {f : FaultInfo} (h : ruleOf i s = .claimedFailed f t) :
    (i = .ret ∧ f = .stackUnderflow) ∨ (∃ nnn, i = .call nnn ∧ f = .stackOverflow) ∨
    ∃ x y n, i = .drw x y n ∧ memRead s s.index.toNat n.toNat = .error f := by
  cases i with
  | cls =>
    rw [ruleOf, clsRule_eq] at h
    cases h
  | ret =>
    obtain ⟨_, hr⟩ | ⟨_, _, _, hr⟩ := retRule_cases s <;> rw [ruleOf, hr] at h <;> cases h
    exact .inl ⟨rfl, rfl⟩
  | call nnn =>
    obtain ⟨_, hr⟩ | ⟨_, hr⟩ := callRule_cases s nnn <;> rw [ruleOf, hr] at h <;> cases h
    exact .inr (.inl ⟨nnn, rfl, rfl⟩)
  | ldVx | ldI => cases h
  | drw x y n =>
    obtain ⟨g, hread, hr⟩ | ⟨_, _, _, _, hr⟩ := drwRule_cases s x y n <;> rw [ruleOf, hr] at h <;> cases h
    exact .inr (.inr ⟨x, y, n, rfl, hread⟩)

/-- A tick that ends with a fault after decode ran a rule that failed, and the record is of that failure (R189). -/
theorem ruleOf_failed_of_endTick {i : Instr} {s : State} {r : FaultRecord}
    (h : (endTick s (ruleOf i s)).result = some (.fault r)) :
    ∃ f, ruleOf i s = .claimedFailed f s ∧ r = s.executeRecord f := by
  obtain ⟨f, hrule⟩ | ⟨t, hrule, _⟩ := ruleOf_cases s i <;> rw [hrule] at h <;> cases h
  exact ⟨f, hrule, rfl⟩

/-- Settles O40: the kinds of the failures that the rules can answer; a sprite read is short or of an unmapped I. -/
theorem eachInstructionRaisesOnlyItsFaults : Obligations.EachInstructionRaisesOnlyItsFaults := by
  unfold Obligations.EachInstructionRaisesOnlyItsFaults
  intro i s t r hexec hres
  rw [exec_eq] at hexec
  cases hexec
  obtain ⟨f, hrule, rfl⟩ := ruleOf_failed_of_endTick hres
  obtain ⟨rfl, rfl⟩ | ⟨nnn, rfl, rfl⟩ | ⟨x, y, n, rfl, hread⟩ := ruleOf_failed_cases hrule
  · rfl
  · rfl
  · exact (memRead_error s hread).imp_left And.left

/-! ### Faults of a tick -/

/-- Everything a faulting tick can be: a fetch that faults, a word no entry claims, or a rule that fails. -/
theorem step_faulted_cases {s t : State} {r : FaultRecord} (hstep : step s = .next t)
    (hres : t.result = some (.fault r)) :
    (∃ f, fetchWord s = .error f ∧ r = faultRecord f 0 false s.pc) ∨
    (∃ w, r = (s.fetched w).executeRecord (.unknownInstruction w)) ∨
    ∃ w i f, decodeWord w = .ok i ∧ ruleOf i (s.fetched w) = .claimedFailed f (s.fetched w) ∧
      r = (s.fetched w).executeRecord f := by
  obtain ⟨f, hf, h⟩ | ⟨w, _, _, _, h⟩ | ⟨w, i, _, hd, h⟩ := step_cases s <;> rw [h] at hstep <;> cases hstep
  · cases hres
    exact .inl ⟨f, hf, rfl⟩
  · cases hres
    exact .inr (.inl ⟨w, rfl⟩)
  · obtain ⟨f, hrule, hr⟩ := ruleOf_failed_of_endTick hres
    exact .inr (.inr ⟨w, i, f, hd, hrule, hr⟩)

/-- Where PC is at most 0x1000, a fetch faults at the last byte of RAM and right after it only (R181, R187). -/
theorem fetchWord_error_of_pc_le_ramSize {s : State} {f : FaultInfo} (hpc : s.pc.toNat ≤ ramSize)
    (h : fetchWord s = .error f) :
    (f.kind = .shortRead ∧ s.pc = 0x0FFF) ∨ (f.kind = .addressInvalid ∧ s.pc = 0x1000) := by
  simp only [ramSize] at hpc
  obtain hlt | heq | heq : s.pc.toNat < 0x0FFF ∨ s.pc.toNat = 0x0FFF ∨ s.pc.toNat = 0x1000 := by omega
  · rw [fetchWord_ram s (by omega)] at h
    cases h
  · rw [fetchWord_ram_end s heq] at h
    cases h
    exact .inl ⟨rfl, BitVec.eq_of_toNat_eq heq⟩
  · rw [fetchWord_unmapped s (by omega) (by omega)] at h
    cases h
    exact .inr ⟨rfl, BitVec.eq_of_toNat_eq heq⟩

/-- A word that decodes to a draw is of class D and holds the sprite's height in its last digit (30_encoding.md R91,
R92). -/
theorem fields_of_decodeWord_drw {w : Word} {x y n : Nibble} (h : decodeWord w = .ok (.drw x y n)) :
    fieldClass w = 0xD ∧ fieldN w = n := by
  obtain ⟨e, hclaims, hinstr⟩ := (decodeWord_ok_iff w _).mp h
  cases e <;> cases hinstr
  exact ⟨(claims_drw w).mp hclaims, rfl⟩

/-- With I in RAM a draw's sprite read fails only by running past the end of RAM (R187). -/
theorem memRead_error_of_lt_ramSize {s : State} {a n : Nat} {f : FaultInfo} (ha : a < ramSize)
    (h : memRead s a n = .error f) : f.kind = .shortRead ∧ 0x1000 < a + n := by
  obtain ⟨hkind, hpast⟩ | ⟨_, hout⟩ := memRead_error s h
  · exact ⟨hkind, hpast ha⟩
  · exact absurd ha (Nat.not_lt.mpr hout)

/-- The kinds of fault a tick can raise in a state that meets the invariant, and where (R181 to R187). -/
theorem kind_of_faulted_step {s t : State} {r : FaultRecord} (hs : s.Inv) (hstep : step s = .next t)
    (hres : t.result = some (.fault r)) :
    r.kind = .unknownInstruction ∨ r.kind = .stackUnderflow ∨ r.kind = .stackOverflow ∨
    (r.kind = .addressInvalid ∧ s.pc = 0x1000) ∨
    (r.kind = .shortRead ∧ (s.pc = 0x0FFF ∨
      (fieldClass r.opcode = 0xD ∧ 0x1000 < s.index.toNat + (fieldN r.opcode).toNat))) := by
  obtain ⟨_, _, _, hpc, _, hindex⟩ := hs
  obtain ⟨f, hf, rfl⟩ | ⟨w, rfl⟩ | ⟨w, i, f, hd, hrule, rfl⟩ := step_faulted_cases hstep hres
  · obtain ⟨hkind, hat⟩ | ⟨hkind, hat⟩ := fetchWord_error_of_pc_le_ramSize hpc hf
    · exact .inr (.inr (.inr (.inr ⟨hkind, .inl hat⟩)))
    · exact .inr (.inr (.inr (.inl ⟨hkind, hat⟩)))
  · exact .inl rfl
  · obtain ⟨rfl, rfl⟩ | ⟨nnn, rfl, rfl⟩ | ⟨x, y, n, rfl, hread⟩ := ruleOf_failed_cases hrule
    · exact .inr (.inl rfl)
    · exact .inr (.inr (.inl rfl))
    · obtain ⟨hclass, rfl⟩ := fields_of_decodeWord_drw hd
      obtain ⟨hkind, hpast⟩ := memRead_error_of_lt_ramSize hindex hread
      exact .inr (.inr (.inr (.inr ⟨hkind, .inr ⟨hclass, hpast⟩⟩)))

/-- Settles O41: the kinds not excluded, each with its place. -/
theorem faultsOfARunAreTheReachableOnes : Obligations.FaultsOfARunAreTheReachableOnes := by
  unfold Obligations.FaultsOfARunAreTheReachableOnes
  intro s t r hs hstep hres
  obtain hkind | hkind | hkind | ⟨hkind, hat⟩ | ⟨hkind, hat⟩ := kind_of_faulted_step hs hstep hres
  · simp [hkind]
  · simp [hkind]
  · simp [hkind]
  · simpa [hkind] using hat
  · simpa [hkind] using hat

/-! ### Records (R189) -/

/-- A word that no entry claims is rejected by the decoder (30_encoding.md R94). -/
theorem decodeWord_of_unclaimed {w : Word} (h : ∀ e : Entry, e.claims w = false) :
    decodeWord w = .error (.unknownInstruction w) := by
  refine (decodeWord_unknown_iff w).mpr (Option.eq_none_iff_forall_ne_some.mpr fun e he => ?_)
  rw [← claims_iff_dispatchByClass, h e] at he
  cases he

/-- The record of an unknown word, with PC at the start of the tick as pc0. -/
theorem executeRecord_unknownInstruction (s : State) (w : Word) :
    (s.fetched w).executeRecord (.unknownInstruction w) = ⟨6, .unknownInstruction, 0, 0, 0, w, true, s.pc⟩ := by
  rw [State.executeRecord, State.fetched_pc0]
  rfl

/-- Settles O35: the decoder rejects the word, and the fault is taken in the state decode left. -/
theorem unclaimedWordRaisesUnknownInstruction : Obligations.UnclaimedWordRaisesUnknownInstruction := by
  unfold Obligations.UnclaimedWordRaisesUnknownInstruction
  intro s w hw hunclaimed
  rw [← executeRecord_unknownInstruction]
  exact ⟨_, step_of_decodeWord_error hw (decodeWord_of_unclaimed hunclaimed), ⟨rfl, rfl, rfl⟩, rfl, rfl,
    rfl, rfl, rfl, rfl, rfl, rfl, rfl⟩

/-- A rule that fails ends the tick with the fault taken in the state it was given. -/
theorem exec_of_ruleOf_failed {i : Instr} {s : State} {f : FaultInfo} (h : ruleOf i s = .claimedFailed f s) :
    exec i s = .next (s.takeFault (s.executeRecord f)) := by
  rw [exec_eq, h, endTick_claimedFailed]

/-- Settles O24: the push is refused before CALL writes anything. -/
theorem callOnAFullStackOverflows : Obligations.CallOnAFullStackOverflows := by
  unfold Obligations.CallOnAFullStackOverflows
  intro nnn s hfull
  have hrule : ruleOf (.call nnn) s = .claimedFailed .stackOverflow s := by
    simp only [ruleOf, callRule, State.push_full hfull.ge]
  exact ⟨_, exec_of_ruleOf_failed hrule, ⟨rfl, rfl, rfl⟩, rfl, rfl, rfl, rfl, rfl, rfl, rfl, rfl, rfl⟩

/-- Settles O26: the pop is refused before RET writes anything. -/
theorem retOnAnEmptyStackUnderflows : Obligations.RetOnAnEmptyStackUnderflows := by
  unfold Obligations.RetOnAnEmptyStackUnderflows
  intro s hempty
  have hrule : ruleOf .ret s = .claimedFailed .stackUnderflow s := by
    simp only [ruleOf, retRule, State.pop_empty hempty]
  exact ⟨_, exec_of_ruleOf_failed hrule, ⟨rfl, rfl, rfl⟩, rfl, rfl, rfl, rfl, rfl, rfl, rfl, rfl, rfl⟩

/-- Settles O42: the model's table of codes and info fields, kind by kind. -/
theorem faultRecordsCarryTheirInfo : Obligations.FaultRecordsCarryTheirInfo :=
  fun _ _ _ _ _ _ _ => ⟨rfl, rfl, rfl, rfl, rfl, rfl, rfl, rfl⟩

end Sys2Proof.Machine

/-! # The host's actions (60_exceptions.md R200 to R207) -/

namespace Sys2Proof.Machine

/-! ### Load (R201) -/

section Load

variable {s : State} {a : Nat} {bytes : List Byte}

theorem loadAllowed_iff :
    s.loadAllowed a bytes = true ↔ s.result = none ∧ 0x200 ≤ a ∧ a + bytes.length ≤ 0x1000 := by
  rw [State.loadAllowed, Bool.and_eq_true, Option.isNone_iff_eq_none, decide_eq_true_iff]
  rfl

theorem apply_load_of_allowed (h : s.loadAllowed a bytes = true) :
    (HostAction.load a bytes).apply s = (s.setDevice .ram (overwrite .ram s.ram a bytes), .loadOk) := by
  simp only [HostAction.apply, State.load, if_pos h, State.setDevice]

theorem apply_load_of_not_allowed (h : ¬ s.loadAllowed a bytes = true) :
    (HostAction.load a bytes).apply s = (s, .loadRefused) := by
  simp only [HostAction.apply, State.load, if_neg h]

end Load

/-- Settles O52: an allowed Load overwrites one range of RAM. -/
theorem loadWritesTheProgramOrIsRefused : Obligations.LoadWritesTheProgramOrIsRefused := by
  unfold Obligations.LoadWritesTheProgramOrIsRefused
  intro s a bytes
  rw [← loadAllowed_iff]
  refine ⟨fun h => ⟨_, apply_load_of_allowed h, rfl, ?_⟩, apply_load_of_not_allowed⟩
  obtain ⟨_, _, hfit⟩ := loadAllowed_iff.mp h
  exact memRead1_overwriteRam s a bytes hfit

/-! ### Reset (R207, 70_reset_and_hazards.md R210) -/

/-- RAM zeroed and the font written at its start is RAM as it is listed after reset. -/
theorem overwrite_devReset_font : overwrite .ram (devReset .ram) 0 font = [] := by
  refine equalBytesAreEqualMemories .ram _ _ (overwrite_wf (devReset_wf .ram) (by decide)) (nil_wf .ram)
    fun off hoff => ?_
  rw [byteOf_overwrite_getD, byteOf_devReset .ram off hoff, byteOf_nil, initByte]
  by_cases hfont : off < font.length <;> simp [hfont]

/-- The framebuffer zeroed is the framebuffer as it is listed after reset. -/
theorem devReset_fb : devReset .fb = [] :=
  equalBytesAreEqualMemories .fb _ _ (devReset_wf .fb) (nil_wf .fb) fun off hoff => byteOf_devReset .fb off hoff

/-- The reset sequence discards all state. -/
theorem resetSequence_eq_reset (s : State) : s.resetSequence = State.reset := by
  simp only [State.resetSequence, overwrite_devReset_font, devReset_fb]
  rfl

theorem inv_reset : State.reset.Inv := by
  refine ⟨⟨nil_wf .ram, nil_wf .fb⟩, ?_, Nat.zero_le _, ?_, ?_, ?_⟩
  · exact fun c hc => nomatch hc
  · decide
  · exact fun a ha => nomatch ha
  · decide

/-! ### The invariant -/

/-- Load writes inside RAM or nothing. -/
theorem inv_apply_load {s : State} (hs : s.Inv) (a : Nat) (bytes : List Byte) :
    ((HostAction.load a bytes).apply s).1.Inv := by
  by_cases h : s.loadAllowed a bytes = true
  · obtain ⟨_, _, hfit⟩ := loadAllowed_iff.mp h
    obtain ⟨⟨hram, hfb⟩, hrest⟩ := hs
    rw [apply_load_of_allowed h]
    exact ⟨⟨overwrite_wf hram hfit, hfb⟩, hrest⟩
  · rw [apply_load_of_not_allowed h]
    exact hs

theorem inv_apply {s : State} (hs : s.Inv) (act : HostAction) : (act.apply s).1.Inv := by
  cases act with
  | reset =>
    rw [HostAction.apply, resetSequence_eq_reset]
    exact inv_reset
  | load a bytes => exact inv_apply_load hs a bytes
  | tick => exact everyStepKeepsTheInvariant s s.tick hs (step_eq_next_tick s)
  | snapshot | ackDirty | timerEvent => exact hs

theorem inv_applyAll {s : State} (hs : s.Inv) (acts : List HostAction) : (applyAll acts s).Inv := by
  induction acts generalizing s with
  | nil => exact hs
  | cons act acts ih => exact ih (inv_apply hs act)

/-- Settles O47: by the cases of the action, and by induction on the list of actions. -/
theorem everyHostActionKeepsTheInvariant : Obligations.EveryHostActionKeepsTheInvariant :=
  ⟨fun act _ hs => inv_apply hs act, inv_applyAll inv_reset⟩

/-! ### Snapshot, AckDirty and TimerEvent (R203 to R205) -/

/-- Settles O53: the snapshot's framebuffer is the device's bytes from offset 0 on. -/
theorem snapshotShowsTheState : Obligations.SnapshotShowsTheState := by
  unfold Obligations.SnapshotShowsTheState
  intro s
  have hfb : s.snapshot.fb = bytesFrom .fb s.fb 0 fbSize := by simp only [State.snapshot, bytesFrom, Nat.zero_add]
  refine ⟨s.snapshot, rfl, rfl, rfl, rfl, rfl, rfl, rfl, rfl, ?_, fun k b hk => ?_⟩
  · rw [hfb, length_bytesFrom]
    rfl
  · rw [hfb] at hk
    exact memRead1_of_bytesFrom (d := .fb) (off := 0) s (by decide) hk

/-- Settles O54: the model's AckDirty. -/
theorem ackDirtyClearsTheFlag : Obligations.AckDirtyClearsTheFlag := fun _ => rfl

/-- DT counts down and stays at 0. -/
theorem toNat_timerEvent_dt (s : State) : s.timerEvent.dt.toNat = s.dt.toNat - 1 := by
  simp only [State.timerEvent, State.setDt_dt]
  split <;> bv_omega

/-- Settles O55: TimerEvent writes DT only. -/
theorem timerEventCountsDown : Obligations.TimerEventCountsDown :=
  fun s => ⟨s.timerEvent, rfl, rfl, toNat_timerEvent_dt s⟩

/-- Settles O56: by the cases of the action; a Load after a tick is refused. -/
theorem hostChangesNothingElse : Obligations.HostChangesNothingElse := by
  unfold Obligations.HostChangesNothingElse
  intro act s hreset htick
  cases act with
  | reset => exact absurd rfl hreset
  | tick => exact absurd rfl htick
  | load a bytes =>
    by_cases h : s.loadAllowed a bytes = true
    · have hfresh : s.result = none := (loadAllowed_iff.mp h).1
      rw [apply_load_of_allowed h]
      exact ⟨rfl, rfl, rfl, rfl, rfl, rfl, rfl, fun _ => rfl, fun _ => rfl, fun hload => absurd rfl (hload a bytes),
        absurd hfresh⟩
    · rw [apply_load_of_not_allowed h]
      exact ⟨rfl, rfl, rfl, rfl, rfl, rfl, rfl, fun _ => rfl, fun _ => rfl, fun _ => rfl, fun _ => rfl⟩
  | snapshot =>
    exact ⟨rfl, rfl, rfl, rfl, rfl, rfl, rfl, fun _ => rfl, fun _ => rfl, fun _ => rfl, fun _ => rfl⟩
  | ackDirty =>
    exact ⟨rfl, rfl, rfl, rfl, rfl, rfl, rfl, fun _ => rfl, absurd rfl, fun _ => rfl, fun _ => rfl⟩
  | timerEvent =>
    exact ⟨rfl, rfl, rfl, rfl, rfl, rfl, rfl, absurd rfl, fun _ => rfl, fun _ => rfl, fun _ => rfl⟩

end Sys2Proof.Machine

/-! # Runs of ticks: the first fault (60_exceptions.md R208) -/

namespace Sys2Proof.Machine

/-! ### The first fault's record -/

/-- One tick keeps the first fault's record, or records its own fault if there was none. -/
theorem tick_firstFault (s : State) :
    s.tick.firstFault = s.firstFault.or (s.tick.result.bind TickResult.record?) := by
  obtain ⟨_, hres, hfirst⟩ | ⟨r, _, hres, hfirst⟩ := tick_completed_or_faulted s
  · simp [hres, hfirst, TickResult.record?]
  · cases hs : s.firstFault <;> simp [hres, hfirst, hs, TickResult.record?]

/-- A run keeps the first fault's record, or records the first fault among its results. -/
theorem runTicks_firstFault (k : Nat) (s : State) :
    (runTicks k s).1.firstFault =
      s.firstFault.or ((runTicks k s).2.findSome? (fun o => o.bind TickResult.record?)) := by
  induction k generalizing s with
  | zero => simp [runTicks]
  | succ k ih =>
    simp only [runTicks, ih s.tick, tick_firstFault s, Option.or_assoc, List.findSome?_cons]
    cases s.tick.result.bind TickResult.record? <;> rfl

/-- Settles O58: by induction on the number of ticks. -/
theorem firstFaultIsRecordedAndKept : Obligations.FirstFaultIsRecordedAndKept := by
  unfold Obligations.FirstFaultIsRecordedAndKept
  intro k s
  rw [runTicks_firstFault]
  cases s.firstFault <;> rfl

/-! ### The run to the first fault -/

/-- A tick that did not complete returned a fault record. -/
theorem tick_faulted_of_not_completed {s : State} (h : s.tick.completed = false) :
    ∃ r, s.tick.result = some (.fault r) := by
  obtain ⟨_, hres, _⟩ | ⟨r, _, hres, _⟩ := tick_completed_or_faulted s
  · simp [State.completed, hres] at h
  · exact ⟨r, hres⟩

/-- The run to the first fault ends in no state exactly when every tick completes. -/
theorem runToFault_eq_none_iff (k : Nat) (s : State) : runToFault k s = none ↔ FaultFree k s := by
  induction k generalizing s with
  | zero => simp [runToFault, FaultFree]
  | succ k ih => cases hdone : s.tick.completed <;> simp [runToFault, FaultFree, hdone, ih]

/-- The run to the first fault is completed ticks and then one that faulted. -/
theorem runToFault_eq_some {k : Nat} {s t : State} (h : runToFault k s = some t) :
    ∃ j, j < k ∧ FaultFree j s ∧ t = (runTicks (j + 1) s).1 ∧ ∃ r, t.result = some (.fault r) := by
  induction k generalizing s with
  | zero => cases h
  | succ k ih =>
    cases hdone : s.tick.completed with
    | false =>
      simp only [runToFault, hdone] at h
      cases h
      exact ⟨0, k.succ_pos, trivial, rfl, tick_faulted_of_not_completed hdone⟩
    | true =>
      simp only [runToFault, hdone, if_true] at h
      obtain ⟨j, hj, hfree, ht, hfault⟩ := ih h
      exact ⟨j + 1, Nat.succ_lt_succ hj, ⟨hdone, hfree⟩, ht, hfault⟩

/-- Settles O59: by induction on the number of ticks allowed, for either outcome. -/
theorem runToFaultEndsAtTheFirstFault : Obligations.RunToFaultEndsAtTheFirstFault :=
  fun k s => ⟨fun _ => runToFault_eq_some, runToFault_eq_none_iff k s⟩

end Sys2Proof.Machine

/-! # The state right after reset (70_reset_and_hazards.md R210 to R215) -/

namespace Sys2Proof.Machine

/-- Settles O45: the memories list nothing, and every bound is met. -/
theorem invariantHoldsAtReset : Obligations.InvariantHoldsAtReset := inv_reset

/-- Settles O48: the sequence writes every field with its reset value, and the memory it writes lists nothing. -/
theorem resetSequenceGivesTheResetState : Obligations.ResetSequenceGivesTheResetState := fun s => by
  rw [HostAction.apply, resetSequence_eq_reset]

/-- Settles O49: the registers of the reset state. -/
theorem registersAfterReset : Obligations.RegistersAfterReset := fun s =>
  ⟨State.reset, resetSequenceGivesTheResetState s, State.reset_reg, rfl, rfl, rfl, rfl, rfl, rfl, rfl⟩

/-! ### Memory (R211 to R213) -/

theorem memRead1_reset_ram {a : Nat} (h : a < 0x1000) : memRead1 State.reset a = .ok (font.getD a 0) :=
  memRead1_ram State.reset h

theorem memRead1_reset_fb {a : Nat} (hlo : 0xF800 ≤ a) (hhi : a < 0x10000) : memRead1 State.reset a = .ok 0 :=
  memRead1_fb State.reset hlo hhi

theorem length_font : font.length = 0x50 := rfl

/-- Past the font RAM holds zeros (R211). -/
theorem font_getD_of_le {a : Nat} (h : 0x50 ≤ a) : font.getD a 0 = 0 :=
  List.getD_eq_default _ _ (by rwa [length_font])

/-- In a list put together from pieces of one length, piece `d` begins at offset `n * d`. -/
theorem getElem?_flatten_of_length_eq {α : Type} {n i : Nat} {pieces : List (List α)}
    (hlen : ∀ p ∈ pieces, p.length = n) (hi : i < n) (d : Nat) :
    pieces.flatten[n * d + i]? = pieces[d]?.bind (·[i]?) := by
  induction pieces generalizing d with
  | nil => rfl
  | cons p ps ih =>
    obtain ⟨rfl, hps⟩ := List.forall_mem_cons.mp hlen
    cases d with
    | zero => simp [List.getElem?_append_left hi]
    | succ d =>
      have hskip : p.length * (d + 1) + i = p.length + (p.length * d + i) := by ring
      simpa [hskip, List.getElem?_append_right] using ih hps d

/-- Where the font is the glyphs one after another, 5 bytes each, row `row` of glyph `d` stands at 5d + row (R212). -/
theorem memRead1_reset_glyph {glyphs : List (List Byte)} {d row : Nat} {b : Byte}
    (hb : glyphs[d]?.bind (fun g => g[row]?) = some b) (hrow : row < 5) (hlen : ∀ g ∈ glyphs, g.length = 5)
    (hfont : font = glyphs.flatten) : memRead1 State.reset (5 * d + row) = .ok b := by
  rw [← getElem?_flatten_of_length_eq hlen hrow, ← hfont] at hb
  have hlt : 5 * d + row < font.length := (List.getElem?_eq_some_iff.mp hb).1
  rw [length_font] at hlt
  rw [memRead1_reset_ram (by omega), List.getD_eq_getElem?_getD, hb]
  rfl

/-- Settles O50: the font is the sixteen glyphs one after another, and all that lies past it is zero. -/
theorem memoryAfterReset : Obligations.MemoryAfterReset := by
  unfold Obligations.MemoryAfterReset
  intro s
  refine ⟨State.reset, resetSequenceGivesTheResetState s, fun d row b hrow hb => ?_, fun a hlo hhi => ?_,
    fun a => memRead1_reset_fb⟩
  · exact memRead1_reset_glyph hb hrow (by decide) rfl
  · rw [memRead1_reset_ram hhi, font_getD_of_le hlo]

/-! ### The first tick (R215) -/

/-- With nothing loaded the first word fetched is 0x0000, from two bytes past the font. -/
theorem fetchWord_reset : fetchWord State.reset = .ok 0x0000 := by
  have hzero {a : Nat} (h : 0x50 ≤ a) : byteOf .ram State.reset.ram a = 0 := font_getD_of_le h
  rw [fetchWord_ram _ (by decide), hzero (by decide), hzero (by decide)]
  rfl

/-- Settles O51: no entry claims the word fetched. -/
theorem firstTickWithoutAProgramIsUnknown : Obligations.FirstTickWithoutAProgramIsUnknown := by
  obtain ⟨t, hstep, ⟨_, hresult, _⟩, hpc, _⟩ :=
    unclaimedWordRaisesUnknownInstruction State.reset 0x0000 fetchWord_reset (fun e => by cases e <;> rfl)
  exact ⟨t, hstep, hpc, hresult⟩

end Sys2Proof.Machine
